-- ==== Sys2Proof/Word.lean ====
section
/-! DEFINITION. The two sizes of data the spec names: 32-bit words and 8-bit bytes (00_scope.md R6).
The word operations of R10 and R11 stand in Machine/Operands.lean. -/

namespace Sys2Proof

/-- An unsigned 32-bit word (R6, R10). -/
abbrev Word := BitVec 32

/-- An 8-bit byte (R6). -/
abbrev Byte := BitVec 8

end Sys2Proof
end

