-- ==== Sys2Proof/Syntax.lean ====
section
/-! DEFINITION. The instructions: one constructor for every row of spec/opcode_table.json, the 22 host
operations of 30_encoding.md R75 and the 11 micro-operations of R76. -/

namespace Sys2Proof

/-- The two agents, and with them the two formats of 30_encoding.md R70: the host's 37-bit access word and
the engine's 5-bit sequencer selector. -/
inductive Agent where
  | host
  | engine
  deriving DecidableEq, Repr

/-- A host operation or a micro-operation. A write carries its 32-bit `data` field `v`, ignored bits and all
(R71, R73); a row that covers several register numbers carries the number `r`. A read's `data` field is
ignored and is no operand (R71, R78; log 19), and a micro-operation has no operand field (R73). -/
inductive Instr where
  /-- `WR CTRL, v` with `v[0] = 1` (R94). -/
  | start (v : Word)
  /-- `WR CTRL, v` with `v[0] = 0` (R95). -/
  | ctrlnop (v : Word)
  /-- `WR LEN_LO, v` (R96). -/
  | wrlenlo (v : Word)
  /-- `WR LEN_HI, v` (R97). -/
  | wrlenhi (v : Word)
  /-- `RD CTRL` (R98). -/
  | rdctrl
  /-- `RD STATUS` (R99). -/
  | rdstatus
  /-- `RD LEN_LO` (R100). -/
  | rdlenlo
  /-- `RD LEN_HI` (R101). -/
  | rdlenhi
  /-- `RD DIGEST0` (R102). -/
  | rddig0
  /-- `RD DIGEST1` (R102). -/
  | rddig1
  /-- `RD DIGEST2` (R102). -/
  | rddig2
  /-- `RD DIGEST3` (R102). -/
  | rddig3
  /-- `RD DIGEST4` (R102). -/
  | rddig4
  /-- `WR STATUS, v` (R103). -/
  | wrstatus (v : Word)
  /-- `WR DIGESTk, v` for the register numbers 4 to 7 (R103). -/
  | wrdig03 (r : BitVec 4) (v : Word)
  /-- `WR DIGEST4, v` (R103). -/
  | wrdig4 (v : Word)
  /-- `RD` of the reserved register number 9 (R103). -/
  | rdrsv9
  /-- `RD` of the reserved register numbers 10 and 11 (R103). -/
  | rdrsv10to11 (r : BitVec 4)
  /-- `RD` of the reserved register numbers 12 to 15 (R103). -/
  | rdrsv12to15 (r : BitVec 4)
  /-- `WR` of the reserved register number 9 (R103). -/
  | wrrsv9 (v : Word)
  /-- `WR` of the reserved register numbers 10 and 11 (R103). -/
  | wrrsv10to11 (r : BitVec 4) (v : Word)
  /-- `WR` of the reserved register numbers 12 to 15 (R103). -/
  | wrrsv12to15 (r : BitVec 4) (v : Word)
  /-- The engine waits (R105). -/
  | idle
  /-- Load a block of the padded message (R114). -/
  | ldblk
  /-- Load schedule words 0 to 15 (R120). -/
  | wld
  /-- Expand one schedule word (R121). -/
  | wxp
  /-- Load the working registers (R130). -/
  | winit
  /-- A round of the rounds 0 to 19 (R133). -/
  | rnd0
  /-- A round of the rounds 20 to 39 (R134). -/
  | rnd1
  /-- A round of the rounds 40 to 59 (R135). -/
  | rnd2
  /-- A round of the rounds 60 to 79 (R136). -/
  | rnd3
  /-- Accumulate into the hash state (R137). -/
  | hacc
  /-- Serialize the digest and finish the run (R150). -/
  | dser
  deriving DecidableEq, Repr

namespace Instr

/-- Which agent executes the instruction (R70). -/
def agent : Instr → Agent
  | .start _ | .ctrlnop _ | .wrlenlo _ | .wrlenhi _ => .host
  | .rdctrl | .rdstatus | .rdlenlo | .rdlenhi => .host
  | .rddig0 | .rddig1 | .rddig2 | .rddig3 | .rddig4 => .host
  | .wrstatus _ | .wrdig03 _ _ | .wrdig4 _ => .host
  | .rdrsv9 | .rdrsv10to11 _ | .rdrsv12to15 _ => .host
  | .wrrsv9 _ | .wrrsv10to11 _ _ | .wrrsv12to15 _ _ => .host
  | .idle | .ldblk | .wld | .wxp | .winit => .engine
  | .rnd0 | .rnd1 | .rnd2 | .rnd3 | .hacc | .dser => .engine

/-- Whether the instruction is an `RD` host operation (R93). -/
def isRead : Instr → Bool
  | .rdctrl | .rdstatus | .rdlenlo | .rdlenhi => true
  | .rddig0 | .rddig1 | .rddig2 | .rddig3 | .rddig4 => true
  | .rdrsv9 | .rdrsv10to11 _ | .rdrsv12to15 _ => true
  | .start _ | .ctrlnop _ | .wrlenlo _ | .wrlenhi _ => false
  | .wrstatus _ | .wrdig03 _ _ | .wrdig4 _ => false
  | .wrrsv9 _ | .wrrsv10to11 _ _ | .wrrsv12to15 _ _ => false
  | .idle | .ldblk | .wld | .wxp | .winit => false
  | .rnd0 | .rnd1 | .rnd2 | .rnd3 | .hacc | .dser => false

/-- The row's mnemonic, as spec/opcode_table.json spells it. -/
def mnemonic : Instr → String
  | .start _ => "START"
  | .ctrlnop _ => "CTRLNOP"
  | .wrlenlo _ => "WRLENLO"
  | .wrlenhi _ => "WRLENHI"
  | .rdctrl => "RDCTRL"
  | .rdstatus => "RDSTATUS"
  | .rdlenlo => "RDLENLO"
  | .rdlenhi => "RDLENHI"
  | .rddig0 => "RDDIG0"
  | .rddig1 => "RDDIG1"
  | .rddig2 => "RDDIG2"
  | .rddig3 => "RDDIG3"
  | .rddig4 => "RDDIG4"
  | .wrstatus _ => "WRSTATUS"
  | .wrdig03 _ _ => "WRDIG0_3"
  | .wrdig4 _ => "WRDIG4"
  | .rdrsv9 => "RDRSV9"
  | .rdrsv10to11 _ => "RDRSV10_11"
  | .rdrsv12to15 _ => "RDRSV12_15"
  | .wrrsv9 _ => "WRRSV9"
  | .wrrsv10to11 _ _ => "WRRSV10_11"
  | .wrrsv12to15 _ _ => "WRRSV12_15"
  | .idle => "IDLE"
  | .ldblk => "LDBLK"
  | .wld => "WLD"
  | .wxp => "WXP"
  | .winit => "WINIT"
  | .rnd0 => "RND0"
  | .rnd1 => "RND1"
  | .rnd2 => "RND2"
  | .rnd3 => "RND3"
  | .hacc => "HACC"
  | .dser => "DSER"

end Instr

end Sys2Proof
end

