-- ==== Sys2Proof/WellFormed.lean ====
section
/-! DEFINITION. Which terms of Instr stand for an encoding of 30_encoding.md R75 and R76. -/

namespace Sys2Proof

namespace Instr

/-- The fixed bits of each row of R75 that an operand shares: bit 0 of the value written to CTRL
(R94, R95), and the register numbers of the rows that cover several. -/
def wf : Instr → Bool
  | .start v => v.getLsbD 0
  | .ctrlnop v => !v.getLsbD 0
  | .wrdig03 r _ => 4 ≤ r.toNat && r.toNat ≤ 7
  | .rdrsv10to11 r => 10 ≤ r.toNat && r.toNat ≤ 11
  | .rdrsv12to15 r => 12 ≤ r.toNat
  | .wrrsv10to11 r _ => 10 ≤ r.toNat && r.toNat ≤ 11
  | .wrrsv12to15 r _ => 12 ≤ r.toNat
  | .wrlenlo _ | .wrlenhi _ | .wrstatus _ | .wrdig4 _ | .wrrsv9 _ => true
  | .rdctrl | .rdstatus | .rdlenlo | .rdlenhi | .rdrsv9 => true
  | .rddig0 | .rddig1 | .rddig2 | .rddig3 | .rddig4 => true
  | .idle | .ldblk | .wld | .wxp | .winit => true
  | .rnd0 | .rnd1 | .rnd2 | .rnd3 | .hacc | .dser => true

/-- The instruction has an encoding. -/
abbrev WellFormed (i : Instr) : Prop := i.wf = true

end Instr

end Sys2Proof
end

