-- ==== Sys2Proof/Decode.lean ====
section
/-! DEFINITION. Decoding and encoding (30_encoding.md R70 to R77), written from the field layouts of R71
and R74, and beside them the match and mask table of R75 and R76 as rows. -/

namespace Sys2Proof

/-- An encoded instruction, in the format of the agent that executes it (R70). -/
inductive AccessWord where
  /-- A host access word (R71). -/
  | haw (w : BitVec 37)
  /-- A sequencer selector (R74). -/
  | sel (s : BitVec 5)
  deriving DecidableEq, Repr

/-- Why a number is no word of a format. -/
inductive DecodeError where
  /-- The number has a bit set above the format's width. -/
  | bitsAboveFormat
  deriving DecidableEq, Repr

/-! ## The host access word -/

/-- Field `we`, bit 36: true is `WR` (R71). -/
def hawWe (w : BitVec 37) : Bool := w.getLsbD 36

/-- Field `reg`, bits 35:32 (R71). -/
def hawReg (w : BitVec 37) : BitVec 4 := w.extractLsb' 32 4

/-- Field `data`, bits 31:0 (R71). -/
def hawData (w : BitVec 37) : Word := w.extractLsb' 0 32

/-- The `RD` rows of R75, by register number. -/
def decodeRead (reg : BitVec 4) : Instr :=
  match reg.toNat with
  | 0 => .rdctrl
  | 1 => .rdstatus
  | 2 => .rdlenlo
  | 3 => .rdlenhi
  | 4 => .rddig0
  | 5 => .rddig1
  | 6 => .rddig2
  | 7 => .rddig3
  | 8 => .rddig4
  | 9 => .rdrsv9
  | 10 => .rdrsv10to11 reg
  | 11 => .rdrsv10to11 reg
  | _ => .rdrsv12to15 reg

/-- The `WR` rows of R75, by register number; bit 0 of `data` splits `WR CTRL`. -/
def decodeWrite (reg : BitVec 4) (data : Word) : Instr :=
  match reg.toNat with
  | 0 => if data.getLsbD 0 then .start data else .ctrlnop data
  | 1 => .wrstatus data
  | 2 => .wrlenlo data
  | 3 => .wrlenhi data
  | 4 => .wrdig03 reg data
  | 5 => .wrdig03 reg data
  | 6 => .wrdig03 reg data
  | 7 => .wrdig03 reg data
  | 8 => .wrdig4 data
  | 9 => .wrrsv9 data
  | 10 => .wrrsv10to11 reg data
  | 11 => .wrrsv10to11 reg data
  | _ => .wrrsv12to15 reg data

/-- The host operation of a host access word: total, since no encoding is illegal (R75, R77). -/
def decodeHaw (w : BitVec 37) : Instr :=
  if hawWe w then decodeWrite (hawReg w) (hawData w) else decodeRead (hawReg w)

/-! ## The sequencer selector -/

/-- The micro-operation of a selector `s`: `s[4:2]` is PHASE, and `s[1:0]` is G, which is decoded in the
phase RND only (R74, R76). -/
def decodeSel (s : BitVec 5) : Instr :=
  match (s.extractLsb' 2 3).toNat with
  | 0 => .idle
  | 1 => .ldblk
  | 2 => .wld
  | 3 => .wxp
  | 4 => .winit
  | 5 =>
    match (s.extractLsb' 0 2).toNat with
    | 0 => .rnd0
    | 1 => .rnd1
    | 2 => .rnd2
    | _ => .rnd3
  | 6 => .hacc
  | _ => .dser

/-- The instruction of an encoded word. -/
def decode : AccessWord → Instr
  | .haw w => decodeHaw w
  | .sel s => decodeSel s

/-- A number read as a word of an agent's format; a number too wide for the format is rejected. -/
def readWord (f : Agent) (n : Nat) : Except DecodeError AccessWord :=
  match f with
  | .host => if n < 2 ^ 37 then .ok (.haw (BitVec.ofNat 37 n)) else .error .bitsAboveFormat
  | .engine => if n < 2 ^ 5 then .ok (.sel (BitVec.ofNat 5 n)) else .error .bitsAboveFormat

/-- The format of a row of the opcode table that has `nbits` bits: the 5-bit selectors stand in one byte,
the 37-bit access words in more than 32 bits (log 20). -/
def tableFormat (nbits : Nat) : Agent := if nbits ≤ 32 then .engine else .host

/-- The instruction the decoder reads from a word numbered as spec/opcode_table.json numbers it. -/
def decodeTableWord (nbits w : Nat) : Option Instr :=
  match readWord (tableFormat nbits) w with
  | .ok x => some (decode x)
  | .error _ => none

/-! ## The encoder -/

/-- `HAW = we * 2^36 + reg * 2^32 + data` (R71). -/
def mkHaw (we : BitVec 1) (reg : BitVec 4) (data : Word) : BitVec 37 := we ++ reg ++ data

/-- `WR reg, data`. -/
def wrWord (reg : BitVec 4) (data : Word) : AccessWord := .haw (mkHaw 1 reg data)

/-- `RD reg`, with the canonical `data` field 0 (R71). -/
def rdWord (reg : BitVec 4) : AccessWord := .haw (mkHaw 0 reg 0)

/-- A selector of PHASE code `p` and group `g` (R74). -/
def selWord (p : BitVec 3) (g : BitVec 2) : AccessWord := .sel (p ++ g)

/-- The word of an instruction: register numbers by R72, PHASE codes by 10_state.md R27, ignored bits 0. -/
def encode : Instr → AccessWord
  | .start v => wrWord 0 v
  | .ctrlnop v => wrWord 0 v
  | .wrstatus v => wrWord 1 v
  | .wrlenlo v => wrWord 2 v
  | .wrlenhi v => wrWord 3 v
  | .wrdig03 r v => wrWord r v
  | .wrdig4 v => wrWord 8 v
  | .wrrsv9 v => wrWord 9 v
  | .wrrsv10to11 r v => wrWord r v
  | .wrrsv12to15 r v => wrWord r v
  | .rdctrl => rdWord 0
  | .rdstatus => rdWord 1
  | .rdlenlo => rdWord 2
  | .rdlenhi => rdWord 3
  | .rddig0 => rdWord 4
  | .rddig1 => rdWord 5
  | .rddig2 => rdWord 6
  | .rddig3 => rdWord 7
  | .rddig4 => rdWord 8
  | .rdrsv9 => rdWord 9
  | .rdrsv10to11 r => rdWord r
  | .rdrsv12to15 r => rdWord r
  | .idle => selWord 0 0
  | .ldblk => selWord 1 0
  | .wld => selWord 2 0
  | .wxp => selWord 3 0
  | .winit => selWord 4 0
  | .rnd0 => selWord 5 0
  | .rnd1 => selWord 5 1
  | .rnd2 => selWord 5 2
  | .rnd3 => selWord 5 3
  | .hacc => selWord 6 0
  | .dser => selWord 7 0

/-- The word with the bits that its operation ignores as an encoding set to 0: the `data` field of an `RD`
(R71), and G in every phase but RND (R74). -/
def canonical : AccessWord → AccessWord
  | .haw w => if hawWe w then .haw w else rdWord (hawReg w)
  | .sel s => if s.extractLsb' 2 3 = 5 then .sel s else selWord (s.extractLsb' 2 3) 0

/-! ## The opcode map as a table -/

/-- One row of the opcode map: a word `w` is the row's operation when `w AND mask = match` (R75, R76). -/
structure Row (n : Nat) where
  mnemonic : String
  matchBits : BitVec n
  mask : BitVec n
  deriving DecidableEq, Repr

/-- The word is the row's operation. -/
def Row.hits {n : Nat} (r : Row n) (w : BitVec n) : Bool := w &&& r.mask == r.matchBits

/-- The writes to CTRL and LEN of R75. -/
def hawRowsControl : List (Row 37) :=
  [⟨"START", 0x1000000001, 0x1F00000001⟩,
   ⟨"CTRLNOP", 0x1000000000, 0x1F00000001⟩,
   ⟨"WRLENLO", 0x1200000000, 0x1F00000000⟩,
   ⟨"WRLENHI", 0x1300000000, 0x1F00000000⟩]

/-- The reads of implemented registers of R75. -/
def hawRowsRead : List (Row 37) :=
  [⟨"RDCTRL", 0x0000000000, 0x1F00000000⟩,
   ⟨"RDSTATUS", 0x0100000000, 0x1F00000000⟩,
   ⟨"RDLENLO", 0x0200000000, 0x1F00000000⟩,
   ⟨"RDLENHI", 0x0300000000, 0x1F00000000⟩,
   ⟨"RDDIG0", 0x0400000000, 0x1F00000000⟩,
   ⟨"RDDIG1", 0x0500000000, 0x1F00000000⟩,
   ⟨"RDDIG2", 0x0600000000, 0x1F00000000⟩,
   ⟨"RDDIG3", 0x0700000000, 0x1F00000000⟩,
   ⟨"RDDIG4", 0x0800000000, 0x1F00000000⟩]

/-- The accesses with no effect of R75. -/
def hawRowsNoEffect : List (Row 37) :=
  [⟨"WRSTATUS", 0x1100000000, 0x1F00000000⟩,
   ⟨"WRDIG0_3", 0x1400000000, 0x1C00000000⟩,
   ⟨"WRDIG4", 0x1800000000, 0x1F00000000⟩,
   ⟨"RDRSV9", 0x0900000000, 0x1F00000000⟩,
   ⟨"RDRSV10_11", 0x0A00000000, 0x1E00000000⟩,
   ⟨"RDRSV12_15", 0x0C00000000, 0x1C00000000⟩,
   ⟨"WRRSV9", 0x1900000000, 0x1F00000000⟩,
   ⟨"WRRSV10_11", 0x1A00000000, 0x1E00000000⟩,
   ⟨"WRRSV12_15", 0x1C00000000, 0x1C00000000⟩]

/-- The table of R75. -/
def hawTable : List (Row 37) := hawRowsControl ++ hawRowsRead ++ hawRowsNoEffect

/-- The table of R76. -/
def selTable : List (Row 5) :=
  [⟨"IDLE", 0x00, 0x1C⟩,
   ⟨"LDBLK", 0x04, 0x1C⟩,
   ⟨"WLD", 0x08, 0x1C⟩,
   ⟨"WXP", 0x0C, 0x1C⟩,
   ⟨"WINIT", 0x10, 0x1C⟩,
   ⟨"RND0", 0x14, 0x1F⟩,
   ⟨"RND1", 0x15, 0x1F⟩,
   ⟨"RND2", 0x16, 0x1F⟩,
   ⟨"RND3", 0x17, 0x1F⟩,
   ⟨"HACC", 0x18, 0x1C⟩,
   ⟨"DSER", 0x1C, 0x1C⟩]

end Sys2Proof
end

