-- ==== Sys2Proof/Config.lean ====
section
/-! DEFINITION. What the spec leaves open: the free values, which nothing in Lean can evaluate, and the
reading of a message offset that nobody wrote. -/

namespace Sys2Proof.Config

/-- A 32-bit value the spec does not fix, drawn from an engine's own stream with a counter
(93_implementation_defined.md U3, U5; log 7, 8, 15, 24). -/
opaque freeWord : (stream : Nat) → (draw : Nat) → Word

/-- A byte the spec does not fix, drawn from an engine's own stream with a counter
(93_implementation_defined.md U5, U6; log 7, 12, 15, 24). -/
opaque freeByte : (stream : Nat) → (draw : Nat) → Byte

/-- What an offset of the message space reads as while nobody has written it.
DESIGN CHOICE (log 11): the spec makes the content of MSG a parameter (R50). -/
def unlistedByte : Byte := 0

/-- The number of engine instances by default (00_scope.md R8, decision D17). -/
def nEngines : Nat := 1

end Sys2Proof.Config
end

