-- ==== Sys2Proof/Machine/State.lean ====
section
/-! DEFINITION. The state of one engine (10_state.md R21 to R28, R35), the model's own fields beside it, the
reasons a step can stop, and the state after reset (R38). -/

namespace Sys2Proof.Machine

/-- The eight values of PHASE (10_state.md R27). Software sees only whether it is IDLE (R28). -/
inductive Phase where
  | idle
  | ldblk
  | wld
  | wxp
  | winit
  | rnd
  | hacc
  | dser
  deriving DecidableEq, Repr

/-- One step of one agent in the total order of 20_memory.md R59 (log 2). -/
inductive Turn where
  /-- The engine executes the micro-operation its sequencer selects (R104). -/
  | engine
  /-- The host issues the access word `w` (R71, R93). -/
  | host (w : BitVec 37)
  /-- The platform delivers reset (R180). -/
  | reset
  /-- The host writes byte `x` at offset `j` of the message space (R17, R183; log 12). -/
  | writeMsg (j : BitVec 61) (x : Byte)
  deriving DecidableEq, Repr

/-- The content of a byte-addressed space: (offset, byte) pairs in the canonical form of `Memory.wf`. -/
abbrev Memory := List Host.Cell

/-- One engine, its message space, and the model's own fields. Names are the spec's in lower case. -/
structure State where
  /-- `H[0..4]`, the hash state (R21). -/
  h : Vector Word 5
  /-- Working register A (R22). -/
  a : Word
  /-- Working register B (R22). -/
  b : Word
  /-- Working register C (R22). -/
  c : Word
  /-- Working register D (R22). -/
  d : Word
  /-- Working register E (R22). -/
  e : Word
  /-- `W[0..79]`, the word schedule (R23). -/
  w : Vector Word 80
  /-- `BLK[0..63]`, the block buffer (R24). -/
  blk : Vector Byte 64
  /-- `DIGEST[0..19]`, the digest buffer (R25). -/
  digest : Vector Byte 20
  /-- `LEN`, the message length in bytes, LEN_HI above LEN_LO (R32). -/
  len : BitVec 64
  /-- PHASE (R26, R27). -/
  phase : Phase
  /-- T, a 7-bit register whose largest value is 79 (R26; log 14). -/
  t : Fin 80
  /-- BI, the index of the block being processed (R26). -/
  bi : BitVec 64
  /-- The flag DONE (R28). -/
  done : Bool
  /-- The flag ERR (R28). -/
  err : Bool
  /-- MSG, the message space (R35, R50). -/
  msg : Memory
  /-- The model's own: the turns still to come, the next one first (log 2, 3). -/
  sched : List Turn
  /-- The model's own: the value the last `RD` returned to the host, none before the first (R71; log 9). -/
  rdValue : Option Word
  /-- The model's own: the counter free values are drawn with (log 8). -/
  draws : Nat
  /-- The model's own: which stream of free values the engine draws from, so that no two engines need share one
  (log 24). No instruction reads it but to draw, and none writes it. -/
  stream : Nat
  /-- The model's own: the host wrote a message byte below LEN since the run began (R60, R184; log 12). -/
  msgChanged : Bool
  deriving DecidableEq, Repr

/-- The reasons a step can stop with a fault. -/
inductive Fault where
  /-- LDBLK was to read offset `j` at or above 2^61, which the message space does not have (20_memory.md R50).
  Raised by LDBLK alone, and only in states that no run reaches (log 16). Safe: the model stops. -/
  | noSuchOffset (j : Nat)
  deriving DecidableEq, Repr

/-- The reasons a step can be refused. -/
inductive Refusal where
  /-- An instruction without a meaning, by its mnemonic: an arm of exec would raise it. Safe: the model stops.
  Every instruction has its meaning, so no arm raises it. -/
  | notModelled (mnemonic : String)
  deriving DecidableEq, Repr

/-- The state after reset (R38, R180). PHASE, T, BI, LEN, DONE and ERR are the spec's; H, A to E, W, BLK and
DIGEST are unspecified there and DESIGN CHOICE 0 here (log 6); the message space lists nothing (log 11). -/
def State.reset : State where
  h := Vector.replicate 5 0
  a := 0
  b := 0
  c := 0
  d := 0
  e := 0
  w := Vector.replicate 80 0
  blk := Vector.replicate 64 0
  digest := Vector.replicate 20 0
  len := 0
  phase := .idle
  t := 0
  bi := 0
  done := false
  err := false
  msg := []
  sched := []
  rdValue := none
  draws := 0
  stream := 0
  msgChanged := false

end Sys2Proof.Machine
end

