-- ==== Sys2Proof/Machine/Operands.lean ====
section
/-! DEFINITION. Operand forms: word and byte operations (00_scope.md R10, R11), the wired constants (R6, R7),
the halves of LEN, the number a DIGEST register reads as, and the sequencer selector (30_encoding.md R74). -/

namespace Sys2Proof.Machine

/-! ## Words and bytes -/

/-- Circular left shift, for `0 < n < 32` (R10). -/
def rotl32 (x : Word) (n : Nat) : Word := (x <<< n) ||| (x >>> (32 - n))

/-- Big-endian assembly of four bytes, `b0` most significant (R11). -/
def be32 (b0 b1 b2 b3 : Byte) : Word := b0 ++ b1 ++ b2 ++ b3

/-- Byte `k` of an `n`-byte value `v`, counted from the most significant (R11). -/
def byteBe (v n k : Nat) : Byte := BitVec.ofNat 8 (v / 2 ^ (8 * (n - 1 - k)))

/-! ## Constants -/

/-- MAXLEN, the largest accepted length in bytes (R8). -/
def maxLen : Nat := 2 ^ 61 - 1

/-- The number of offsets of the message space (20_memory.md R50). -/
def spaceSize : Nat := 2 ^ 61

/-- The initial hash state (R7; the values are from general knowledge, log 1). -/
def iv : Vector Word 5 := #v[0x67452301, 0xEFCDAB89, 0x98BADCFE, 0x10325476, 0xC3D2E1F0]

/-- The round constant of rounds 0 to 19 (R6, 43_compression.md R131). -/
def k0 : Word := 0x5A827999

/-- The round constant of rounds 20 to 39 (R6, R131). -/
def k1 : Word := 0x6ED9EBA1

/-- The round constant of rounds 40 to 59 (R6, R131). -/
def k2 : Word := 0x8F1BBCDC

/-- The round constant of rounds 60 to 79 (R6, R131). -/
def k3 : Word := 0xCA62C1D6

/-! ## The length and the digest as host registers -/

/-- `LEN[31:0]` (10_state.md R32). -/
def lenLo (len : BitVec 64) : Word := len.extractLsb' 0 32

/-- `LEN[63:32]` (R32). -/
def lenHi (len : BitVec 64) : Word := len.extractLsb' 32 32

/-- `LEN = LEN_HI ++ LEN_LO` (R32). -/
def mkLen (hi lo : Word) : BitVec 64 := hi ++ lo

/-- The number DIGESTk reads as, `be32(DIGEST[4k..4k+3])` (10_state.md R33). -/
def digestWord (dg : Vector Byte 20) (k : Fin 5) : Word :=
  be32 (dg[4 * k.val]'(by omega)) (dg[4 * k.val + 1]'(by omega)) (dg[4 * k.val + 2]'(by omega))
    (dg[4 * k.val + 3]'(by omega))

/-! ## The sequencer selector -/

/-- The 3-bit code of a PHASE (10_state.md R27). -/
def Phase.code : Phase → BitVec 3
  | .idle => 0
  | .ldblk => 1
  | .wld => 2
  | .wxp => 3
  | .winit => 4
  | .rnd => 5
  | .hacc => 6
  | .dser => 7

/-- The PHASE of a 3-bit code (R27: all eight codes are used). -/
def Phase.ofCode (c : BitVec 3) : Phase :=
  match c.toNat with
  | 0 => .idle
  | 1 => .ldblk
  | 2 => .wld
  | 3 => .wxp
  | 4 => .winit
  | 5 => .rnd
  | 6 => .hacc
  | _ => .dser

/-- `G = floor(T / 20)` (R74). -/
def group (t : Fin 80) : BitVec 2 := BitVec.ofNat 2 (t.val / 20)

/-- `SEL = PHASE ++ G` (R74). -/
def sel (s : State) : BitVec 5 := s.phase.code ++ group s.t

/-- The micro-operation the sequencer selects (40_host_operations.md R104). -/
def microOp (s : State) : Instr := decodeSel (sel s)

end Sys2Proof.Machine
end

