-- ==== Sys2Proof/Machine/Flags.lean ====
section
/-! DEFINITION. The status flags (10_state.md R28, R31) and the level outputs (60_exceptions.md R163). The spec
has no arithmetic flag: no carry, zero, sign or overflow (R28, 43_compression.md R139). -/

namespace Sys2Proof.Machine

/-- BUSY, not stored: `PHASE != IDLE` (R28). -/
def busy (s : State) : Bool := s.phase != .idle

/-- The number STATUS reads as: BUSY in bit 0, DONE in bit 1, ERR in bit 2, zeros above (R31, R99). -/
def statusWord (s : State) : Word :=
  (BitVec.ofBool s.err ++ BitVec.ofBool s.done ++ BitVec.ofBool (busy s)).zeroExtend 32

/-- The level output `busy`, equal to `STATUS[0]` (R163). -/
def busyOut (s : State) : Bool := (statusWord s).getLsbD 0

/-- The level output `done`, equal to `STATUS[1]` (R163). -/
def doneOut (s : State) : Bool := (statusWord s).getLsbD 1

/-- The level output `err`, equal to `STATUS[2]` (R163). -/
def errOut (s : State) : Bool := (statusWord s).getLsbD 2

end Sys2Proof.Machine
end

