-- ==== Sys2Proof/Machine/Memory.lean ====
section
/-! DEFINITION. The message space as a sorted list of (offset, byte) pairs (20_memory.md R50): reading, the
host's writing, and the canonical form. The engine has no write operation (R52). -/

namespace Sys2Proof.Machine

/-- `MemRead(MSG, j, 1)`: the byte at offset `j` (R50). -/
def Memory.read : Memory → Nat → Byte
  | [], _ => Config.unlistedByte
  | (k, x) :: rest, j => if j = k then x else Memory.read rest j

/-- A cell put before a list, unless it holds what an unlisted offset reads as. -/
def Memory.push (j : Nat) (x : Byte) (m : Memory) : Memory :=
  if x = Config.unlistedByte then m else (j, x) :: m

/-- The space after the host wrote byte `x` at offset `j` (00_scope.md R17, 70_reset_and_hazards.md R183). -/
def Memory.write : Memory → Nat → Byte → Memory
  | [], j, x => Memory.push j x []
  | (k, y) :: rest, j, x =>
    if j < k then Memory.push j x ((k, y) :: rest)
    else if j = k then Memory.push j x rest
    else (k, y) :: Memory.write rest j x

/-- Every offset is at least `lo` and they rise strictly, every offset exists (R50), and no cell holds what an
unlisted offset reads as. -/
def Memory.wfFrom : Nat → Memory → Bool
  | _, [] => true
  | lo, (k, x) :: rest =>
    lo ≤ k && k < spaceSize && x != Config.unlistedByte && Memory.wfFrom (k + 1) rest

/-- The canonical form: equal contents are equal lists. -/
def Memory.wf (m : Memory) : Bool := Memory.wfFrom 0 m

end Sys2Proof.Machine
end

