-- ==== Sys2Proof/Machine/Ops.lean ====
section
/-! DEFINITION. The operations that the meanings share: returning a value to the host, drawing a free value,
accepting a START, taking the exception LengthOverflow, advancing the index T, the reset event, and the host's
write of a message byte. -/

namespace Sys2Proof.Machine

/-- The result of a step that completes. -/
abbrev Result := Host.Outcome State Fault Refusal

/-! ## Host accesses -/

/-- An `RD` returns `v` to the host and changes nothing the engine has (R71, R93; log 9). -/
def returnToHost (v : Word) (s : State) : State := { s with rdValue := some v }

/-- An `RD` returns a value the spec does not fix, drawn afresh (R102, U3; log 8). -/
def returnFree (s : State) : State :=
  { s with rdValue := some (Config.freeWord s.stream s.draws), draws := s.draws + 1 }

/-- `RD DIGESTk`: the digest word while DONE is 1, an unspecified value otherwise (R102). -/
def readDigest (k : Fin 5) (s : State) : State :=
  if s.done then returnToHost (digestWord s.digest k) s else returnFree s

/-- A write to LEN, ignored while the engine is busy (R96, R97). -/
def writeLen (len : BitVec 64) (s : State) : State :=
  if busy s then s else { s with len := len }

/-! ## START and its exception -/

/-- Taking LengthOverflow, the spec's one exception: ERR is set, DONE is cleared, and control goes nowhere:
no handler, no saved state, no mode (60_exceptions.md R161, R165). There is no return operation (R166). -/
def raiseLengthOverflow (s : State) : State := { s with err := true, done := false }

/-- An accepted START (R94). It also ends the effect of an earlier LengthOverflow (R166), and begins a run
whose message has not been changed (R60). -/
def acceptStart (s : State) : State :=
  { s with err := false, done := false, h := iv, bi := 0, t := 0, phase := .ldblk, msgChanged := false }

/-- The tests of a START in their order: busy, then the length, then accepted (60_exceptions.md R164). -/
def processStart (s : State) : State :=
  if busy s then s
  else if maxLen < s.len.toNat then raiseLengthOverflow s
  else acceptStart s

/-! ## The sequencer -/

/-- The index T at the end of WXP and RND: at 79 it returns to 0 and PHASE moves on, below 79 it counts up
(R121, R132). -/
def advanceIndex (next : Phase) (s : State) : State :=
  if h : s.t.val < 79 then { s with t := ⟨s.t.val + 1, by omega⟩ }
  else { s with t := 0, phase := next }

/-! ## Free data -/

/-- The working registers, hash state, schedule and buffers at values the spec does not fix (U5; log 7). -/
def freeData (s : State) : State :=
  { s with
    h := Vector.ofFn fun i => Config.freeWord s.stream (s.draws + i.val)
    a := Config.freeWord s.stream (s.draws + 5)
    b := Config.freeWord s.stream (s.draws + 6)
    c := Config.freeWord s.stream (s.draws + 7)
    d := Config.freeWord s.stream (s.draws + 8)
    e := Config.freeWord s.stream (s.draws + 9)
    w := Vector.ofFn fun i => Config.freeWord s.stream (s.draws + 10 + i.val)
    blk := Vector.ofFn fun i => Config.freeByte s.stream (s.draws + 90 + i.val)
    digest := Vector.ofFn fun i => Config.freeByte s.stream (s.draws + 154 + i.val)
    draws := s.draws + 174 }

/-! ## Events that are no instruction -/

/-- The reset event, in any phase (R180, R182): control state at its reset values, data unspecified, the
message space and the host's side untouched. -/
def resetEvent (s : State) : State :=
  { freeData s with
    phase := .idle, t := 0, bi := 0, len := 0, done := false, err := false, msgChanged := false }

/-- The host writes byte `x` at offset `j` of the message space. A write below LEN during a run leaves the
digest of that run unspecified (R60, R184, U6; log 12). A write below LEN after the DSER of the run and before
the host has read DONE = 1, which R60, R184 and decision D13 forbid too, leaves DIGEST as DSER wrote it: the
model takes the window of U6, which ends at DSER (DESIGN CHOICE, log 25). -/
def hostWriteMsg (j : BitVec 61) (x : Byte) (s : State) : State :=
  { s with
    msg := s.msg.write j.toNat x
    msgChanged := s.msgChanged || (busy s && decide (j.toNat < s.len.toNat)) }

end Sys2Proof.Machine
end

