-- ==== Sys2Proof/Machine/Padding.lean ====
section
/-! DEFINITION. The padded message as a function, the micro-operations IDLE and LDBLK
(41_padding_and_blocks.md R110 to R114, 40_host_operations.md R105). -/

namespace Sys2Proof.Machine

/-- The number of blocks of a message of `l` bytes (R110). -/
def nblk (l : Nat) : Nat := (l + 8) / 64 + 1

/-- Byte `j` of the padded message of the `l` bytes `m` (R111). -/
def padByte (m : Nat → Byte) (l j : Nat) : Byte :=
  if j < l then m j
  else if j = l then 0x80
  else if j < 64 * nblk l - 8 then 0x00
  else byteBe (8 * l) 8 (j - (64 * nblk l - 8))

/-- Whether the spec gives byte `j` a value: a message byte, or a byte of the padded message of an accepted
length (R111 holds for `j < 64 * NBLK(L)`, R110 for `L <= MAXLEN`). -/
def padStated (l j : Nat) : Bool := decide (j < l) || (decide (l ≤ maxLen) && decide (j < 64 * nblk l))

/-- The offsets of the message space that the load of block `bi` reads, in order (R114, 20_memory.md R51). -/
def blockReads (l bi : Nat) : List Nat :=
  ((List.range 64).map (64 * bi + ·)).filter (· < l)

/-- The first offset a load would read that the space does not have (20_memory.md R50). -/
def missingOffset (s : State) : Option Nat :=
  (blockReads s.len.toNat s.bi.toNat).find? (fun j => decide (spaceSize ≤ j))

/-- Whether R114 gives every byte of the block a value: a block wholly inside the message, or any block of the
padded message of an accepted length. -/
def blockStated (s : State) : Bool :=
  decide (64 * s.bi.toNat + 64 ≤ s.len.toNat) ||
    (decide (s.len.toNat ≤ maxLen) && decide (s.bi.toNat < nblk s.len.toNat))

/-- Byte `k` of the block to load; where R114 gives it no value, in states no run reaches, a free value
(log 15). -/
def blockByte (s : State) (k : Nat) : Byte :=
  if padStated s.len.toNat (64 * s.bi.toNat + k) then
    padByte s.msg.read s.len.toNat (64 * s.bi.toNat + k)
  else Config.freeByte s.stream (s.draws + k)

/-- The state after LDBLK: all of BLK is written, and PHASE moves to WLD (R114). -/
def loadBlock (s : State) : State :=
  { s with
    blk := Vector.ofFn fun k => blockByte s k.val
    phase := .wld
    draws := if blockStated s then s.draws else s.draws + 64 }

/-- IDLE: no enabled step, so nothing changes (R105; log 4). -/
def execIdle (s : State) : Result := .next s

/-- LDBLK (R114); a read of an offset that does not exist stops the machine (log 16). -/
def execLdblk (s : State) : Result :=
  match missingOffset s with
  | some j => .fault (.noSuchOffset j)
  | none => .next (loadBlock s)

end Sys2Proof.Machine
end

