-- ==== Sys2Proof/Machine/Compression.lean ====
section
/-! DEFINITION. The compression of a block: WINIT, RND0 to RND3, HACC (43_compression.md R130 to R137). -/

namespace Sys2Proof.Machine

/-- The state after WINIT: A to E are the hash state, T is 0, and PHASE moves to RND (R130). -/
def initWorking (s : State) : State :=
  { s with a := s.h[0], b := s.h[1], c := s.h[2], d := s.h[3], e := s.h[4], t := 0, phase := .rnd }

/-- WINIT (R130). -/
def execWinit (s : State) : Result := .next (initWorking s)

/-- `F` of rounds 0 to 19: each bit of `b` selects the bit of `c` or of `d` (R131). -/
def fSelect (b c d : Word) : Word := (b &&& c) ||| (~~~b &&& d)

/-- `F` of rounds 20 to 39 and 60 to 79 (R131). -/
def fXor (b c d : Word) : Word := b ^^^ c ^^^ d

/-- `F` of rounds 40 to 59: each bit is the majority of the three (R131). -/
def fMajority (b c d : Word) : Word := (b &&& c) ||| (b &&& d) ||| (c &&& d)

/-- The round's `temp`, every addition modulo 2^32 (R132). -/
def roundTemp (f : Word → Word → Word → Word) (k : Word) (s : State) : Word :=
  rotl32 s.a 5 + f s.b s.c s.d + s.e + k + s.w[s.t]

/-- The shift of the working registers, from the values before the round (R132). -/
def shiftRegisters (f : Word → Word → Word → Word) (k : Word) (s : State) : State :=
  { s with a := roundTemp f k s, b := s.a, c := rotl32 s.b 30, d := s.c, e := s.d }

/-- The round step that RND0 to RND3 share (R132). -/
def roundStep (f : Word → Word → Word → Word) (k : Word) (s : State) : State :=
  advanceIndex .hacc (shiftRegisters f k s)

/-- RND0 (R133). -/
def execRnd0 (s : State) : Result := .next (roundStep fSelect k0 s)

/-- RND1 (R134). -/
def execRnd1 (s : State) : Result := .next (roundStep fXor k1 s)

/-- RND2 (R135). -/
def execRnd2 (s : State) : Result := .next (roundStep fMajority k2 s)

/-- RND3 (R136). -/
def execRnd3 (s : State) : Result := .next (roundStep fXor k3 s)

/-- The hash state with the working registers added, word by word modulo 2^32 (R137). -/
def accumulate (s : State) : Vector Word 5 :=
  #v[s.h[0] + s.a, s.h[1] + s.b, s.h[2] + s.c, s.h[3] + s.d, s.h[4] + s.e]

/-- The state after HACC: the block is added and counted, and PHASE moves to DSER after the last block and to
LDBLK otherwise (R137; log 17). -/
def finishBlock (s : State) : State :=
  { s with
    h := accumulate s
    bi := s.bi + 1
    phase := if s.bi.toNat + 1 = nblk s.len.toNat then .dser else .ldblk }

/-- HACC (R137). -/
def execHacc (s : State) : Result := .next (finishBlock s)

end Sys2Proof.Machine
end

