-- ==== Sys2Proof/Machine/Finalization.lean ====
section
/-! DEFINITION. The digest: DSER (44_finalization.md R150). -/

namespace Sys2Proof.Machine

/-- The five words as 20 bytes, big-endian: byte `4i+k` is `byte_be(H[i], 4, k)` (R150). -/
def serialize (h : Vector Word 5) : Vector Byte 20 :=
  Vector.ofFn fun n => byteBe (h[n.val / 4]'(by omega)).toNat 4 (n.val % 4)

/-- The digest of a run whose message was changed: unspecified bytes (20_memory.md R60, U6; log 12). -/
def freeDigest (s : State) : Vector Byte 20 :=
  Vector.ofFn fun n => Config.freeByte s.stream (s.draws + n.val)

/-- The state after DSER: all of DIGEST, DONE and PHASE change in one step (R150). -/
def finishRun (s : State) : State :=
  { s with
    digest := if s.msgChanged then freeDigest s else serialize s.h
    draws := if s.msgChanged then s.draws + 20 else s.draws
    done := true
    phase := .idle }

/-- DSER (R150). -/
def execDser (s : State) : Result := .next (finishRun s)

end Sys2Proof.Machine
end

