-- ==== Sys2Proof/Machine/HostReads.lean ====
section
/-! DEFINITION. The `RD` host operations (40_host_operations.md R98 to R103). -/

namespace Sys2Proof.Machine

/-- RDCTRL returns 0 in every state (R98). -/
def execRdctrl (s : State) : Result := .next (returnToHost 0 s)

/-- RDSTATUS returns `BUSY + 2*DONE + 4*ERR` and clears nothing (R99). -/
def execRdstatus (s : State) : Result := .next (returnToHost (statusWord s) s)

/-- RDLENLO returns `LEN[31:0]` (R100). -/
def execRdlenlo (s : State) : Result := .next (returnToHost (lenLo s.len) s)

/-- RDLENHI returns `LEN[63:32]` (R101). -/
def execRdlenhi (s : State) : Result := .next (returnToHost (lenHi s.len) s)

/-- RDDIG0 (R102). -/
def execRddig0 (s : State) : Result := .next (readDigest 0 s)

/-- RDDIG1 (R102). -/
def execRddig1 (s : State) : Result := .next (readDigest 1 s)

/-- RDDIG2 (R102). -/
def execRddig2 (s : State) : Result := .next (readDigest 2 s)

/-- RDDIG3 (R102). -/
def execRddig3 (s : State) : Result := .next (readDigest 3 s)

/-- RDDIG4 (R102). -/
def execRddig4 (s : State) : Result := .next (readDigest 4 s)

/-- RDRSV9 returns 0 (R103). -/
def execRdrsv9 (s : State) : Result := .next (returnToHost 0 s)

/-- RDRSV10_11 returns 0 (R103). -/
def execRdrsv10to11 (_r : BitVec 4) (s : State) : Result := .next (returnToHost 0 s)

/-- RDRSV12_15 returns 0 (R103). -/
def execRdrsv12to15 (_r : BitVec 4) (s : State) : Result := .next (returnToHost 0 s)

end Sys2Proof.Machine
end

