-- ==== Sys2Proof/Machine/HostWrites.lean ====
section
/-! DEFINITION. The `WR` host operations (40_host_operations.md R94 to R97, R103). -/

namespace Sys2Proof.Machine

/-- START (R94): `v[0]` is 1 and `v[31:1]` is ignored. -/
def execStart (_v : Word) (s : State) : Result := .next (processStart s)

/-- CTRLNOP: no state changes, in any phase (R95). -/
def execCtrlnop (_v : Word) (s : State) : Result := .next s

/-- WRLENLO: `LEN[31:0] <- v` while idle (R96). -/
def execWrlenlo (v : Word) (s : State) : Result := .next (writeLen (mkLen (lenHi s.len) v) s)

/-- WRLENHI: `LEN[63:32] <- v` while idle (R97). -/
def execWrlenhi (v : Word) (s : State) : Result := .next (writeLen (mkLen v (lenLo s.len)) s)

/-- WRSTATUS: no effect (R103). -/
def execWrstatus (_v : Word) (s : State) : Result := .next s

/-- WRDIG0_3: no effect (R103). -/
def execWrdig03 (_r : BitVec 4) (_v : Word) (s : State) : Result := .next s

/-- WRDIG4: no effect (R103). -/
def execWrdig4 (_v : Word) (s : State) : Result := .next s

/-- WRRSV9: no effect (R103). -/
def execWrrsv9 (_v : Word) (s : State) : Result := .next s

/-- WRRSV10_11: no effect (R103). -/
def execWrrsv10to11 (_r : BitVec 4) (_v : Word) (s : State) : Result := .next s

/-- WRRSV12_15: no effect (R103). -/
def execWrrsv12to15 (_r : BitVec 4) (_v : Word) (s : State) : Result := .next s

end Sys2Proof.Machine
end

