-- ==== Sys2Proof/Machine/Schedule.lean ====
section
/-! DEFINITION. The word schedule: WLD and WXP (42_word_schedule.md R120, R121). -/

namespace Sys2Proof.Machine

/-- Word `t` of a block, `0 <= t <= 15`: its four bytes, big-endian (R120). -/
def blockWord (blk : Vector Byte 64) (t : Nat) (h : t < 16) : Word :=
  be32 blk[4 * t] blk[4 * t + 1] blk[4 * t + 2] blk[4 * t + 3]

/-- The schedule with words 0 to 15 loaded from the block and words 16 to 79 unchanged (R120). -/
def loadWords (blk : Vector Byte 64) (w : Vector Word 80) : Vector Word 80 :=
  Vector.ofFn fun t => if h : t.val < 16 then blockWord blk t.val h else w[t]

/-- The state after WLD: words 0 to 15 are written, T is 16, and PHASE moves to WXP (R120). -/
def loadSchedule (s : State) : State := { s with w := loadWords s.blk s.w, t := 16, phase := .wxp }

/-- WLD (R120). -/
def execWld (s : State) : Result := .next (loadSchedule s)

/-- The tap `W[T-k]` of WXP. Where `T < k` there is no such word and the value is free, drawn with `n` for
the `n`-th tap; no run reaches such a state (R121: `16 <= T`; log 15). -/
def tap (s : State) (k n : Nat) : Word :=
  if k ≤ s.t.val then s.w[s.t.val - k]'(by omega) else Config.freeWord s.stream (s.draws + n)

/-- The word WXP writes: `rotl32(W[T-3] XOR W[T-8] XOR W[T-14] XOR W[T-16], 1)` (R121). -/
def expandedWord (s : State) : Word :=
  rotl32 (tap s 3 0 ^^^ tap s 8 1 ^^^ tap s 14 2 ^^^ tap s 16 3) 1

/-- WXP's write of `W[T]`, before the index moves (R121). -/
def writeExpanded (s : State) : State :=
  { s with
    w := s.w.set s.t.val (expandedWord s)
    draws := if 16 ≤ s.t.val then s.draws else s.draws + 4 }

/-- WXP (R121). -/
def execWxp (s : State) : Result := .next (advanceIndex .winit (writeExpanded s))

end Sys2Proof.Machine
end

