-- ==== Sys2Proof/Machine/Dispatch.lean ====
section
/-! DEFINITION. One arm for every instruction: the direct call of its meaning. -/

namespace Sys2Proof.Machine

def exec (i : Instr) (s : State) : Host.Outcome State Fault Refusal :=
  match i with
  | .start v => Sys2Proof.Machine.execStart v s
  | .ctrlnop v => Sys2Proof.Machine.execCtrlnop v s
  | .wrlenlo v => Sys2Proof.Machine.execWrlenlo v s
  | .wrlenhi v => Sys2Proof.Machine.execWrlenhi v s
  | .rdctrl => Sys2Proof.Machine.execRdctrl s
  | .rdstatus => Sys2Proof.Machine.execRdstatus s
  | .rdlenlo => Sys2Proof.Machine.execRdlenlo s
  | .rdlenhi => Sys2Proof.Machine.execRdlenhi s
  | .rddig0 => Sys2Proof.Machine.execRddig0 s
  | .rddig1 => Sys2Proof.Machine.execRddig1 s
  | .rddig2 => Sys2Proof.Machine.execRddig2 s
  | .rddig3 => Sys2Proof.Machine.execRddig3 s
  | .rddig4 => Sys2Proof.Machine.execRddig4 s
  | .wrstatus v => Sys2Proof.Machine.execWrstatus v s
  | .wrdig03 r v => Sys2Proof.Machine.execWrdig03 r v s
  | .wrdig4 v => Sys2Proof.Machine.execWrdig4 v s
  | .rdrsv9 => Sys2Proof.Machine.execRdrsv9 s
  | .rdrsv10to11 r => Sys2Proof.Machine.execRdrsv10to11 r s
  | .rdrsv12to15 r => Sys2Proof.Machine.execRdrsv12to15 r s
  | .wrrsv9 v => Sys2Proof.Machine.execWrrsv9 v s
  | .wrrsv10to11 r v => Sys2Proof.Machine.execWrrsv10to11 r v s
  | .wrrsv12to15 r v => Sys2Proof.Machine.execWrrsv12to15 r v s
  | .idle => Sys2Proof.Machine.execIdle s
  | .ldblk => Sys2Proof.Machine.execLdblk s
  | .wld => Sys2Proof.Machine.execWld s
  | .wxp => Sys2Proof.Machine.execWxp s
  | .winit => Sys2Proof.Machine.execWinit s
  | .rnd0 => Sys2Proof.Machine.execRnd0 s
  | .rnd1 => Sys2Proof.Machine.execRnd1 s
  | .rnd2 => Sys2Proof.Machine.execRnd2 s
  | .rnd3 => Sys2Proof.Machine.execRnd3 s
  | .hacc => Sys2Proof.Machine.execHacc s
  | .dser => Sys2Proof.Machine.execDser s

end Sys2Proof.Machine
end

