-- ==== Sys2Proof/Machine/Fetch.lean ====
section
/-! DEFINITION. Which agent moves next and what it executes (20_memory.md R59, 40_host_operations.md R104), and
the placing of an encoded word where the next step finds it. -/

namespace Sys2Proof.Machine

/-- The next turn. When the schedule is empty the engine moves, as a busy engine keeps stepping
(70_reset_and_hazards.md R190; log 3). -/
def nextTurn (s : State) : Turn :=
  match s.sched with
  | [] => .engine
  | x :: _ => x

/-- The state with the next turn taken off the schedule. -/
def popTurn (s : State) : State := { s with sched := s.sched.tail }

/-- The instruction of a turn: the host's access word decoded, or the micro-operation the sequencer selects;
reset and the host's message writes are no instruction. -/
def turnInstr (x : Turn) (s : State) : Option Instr :=
  match x with
  | .engine => some (microOp s)
  | .host w => some (decodeHaw w)
  | .reset => none
  | .writeMsg _ _ => none

/-- An index T in the group `g`: the present one if it lies there, else the least one; but in the phase WXP one
that is at least 16, as R121 needs (log 5). -/
def indexIn (p : Phase) (g : BitVec 2) (t : Fin 80) : Fin 80 :=
  if group t = g ∧ (p = .wxp → 16 ≤ t.val) then t
  else if p = .wxp ∧ g = 0 then 16
  else ⟨20 * g.toNat, by have := g.isLt; omega⟩

/-- The state in which the next step executes the word: an access word becomes the host's next turn, and for a
selector the sequencer state is set so that it selects it and the engine moves next (log 5). -/
def placeWord (x : AccessWord) (s : State) : State :=
  match x with
  | .haw w => { s with sched := .host w :: s.sched }
  | .sel q =>
    { s with
      phase := Phase.ofCode (q.extractLsb' 2 3)
      t := indexIn (Phase.ofCode (q.extractLsb' 2 3)) (q.extractLsb' 0 2) s.t
      sched := .engine :: s.sched }

end Sys2Proof.Machine
end

