-- ==== Sys2Proof/Machine/Step.lean ====
section
/-! DEFINITION. One step: the next turn of the total order of 20_memory.md R59, and the host's way to place an
encoded word where the next step executes it. -/

namespace Sys2Proof.Machine

/-- One atomic step. The turn is taken off the schedule, and its agent acts on the state that leaves. -/
def step (s : State) : Host.Outcome State Fault Refusal :=
  match nextTurn s with
  | .engine => exec (microOp (popTurn s)) (popTurn s)
  | .host w => exec (decodeHaw w) (popTurn s)
  | .reset => .next (resetEvent (popTurn s))
  | .writeMsg j x => .next (hostWriteMsg j x (popTurn s))

/-- `s` with the word placed so that the very next step executes it; a number that is no word of its format
leaves `s` as it is. -/
def State.withFetchWord (s : State) (nbits w : Nat) : State :=
  match readWord (tableFormat nbits) w with
  | .ok x => placeWord x s
  | .error _ => s

end Sys2Proof.Machine
end

