-- ==== Sys2Proof/Machine/System.lean ====
section
/-! DEFINITION. Several engine instances: the product of copies of the one-engine model
(60_exceptions.md R171, R172; decision D17). -/

namespace Sys2Proof.Machine

/-- `N_ENGINES` instances; each has its own state, message space and host turns, and none is shared. -/
structure System where
  engines : List State
  deriving DecidableEq, Repr

/-- `n` instances right after reset, by default as many as 00_scope.md R8 says. The model's choice (log 24): the
instance `k` draws its free values from stream `k`, so that no unspecified value of one instance is provably one of
another (93_implementation_defined.md U3). No instance sees its number (R171). -/
def System.reset (n : Nat := Config.nEngines) : System :=
  ⟨(List.range n).map fun k => { State.reset with stream := k }⟩

/-- Each instance draws from the stream of its own place (log 24). -/
def System.StreamsApart (y : System) : Prop :=
  ∀ (k : Nat) (s : State), y.engines[k]? = some s → s.stream = k

/-- One step of the instance `k`; which instance moves is the platform's choice (20_memory.md R59). A number
that is no instance moves nothing. -/
def System.stepAt (k : Nat) (y : System) : Host.Outcome System Fault Refusal :=
  match y.engines[k]? with
  | none => .next y
  | some s =>
    match step s with
    | .next u => .next ⟨y.engines.set k u⟩
    | .fault r => .fault r
    | .refused r => .refused r

end Sys2Proof.Machine
end

