-- ==== Sys2Proof/Machine/Contract.lean ====
section
/-! DEFINITION. The contract of the whole engine as a pure function of the message
(40_host_operations.md R90), which a run is to compute (44_finalization.md R151). -/

namespace Sys2Proof.Machine

/-- The five working registers of one block's compression. -/
structure Regs where
  a : Word
  b : Word
  c : Word
  d : Word
  e : Word
  deriving DecidableEq, Repr

/-- Block `n` of the padded message of the `l` bytes `m` (41_padding_and_blocks.md R113). -/
def messageBlock (m : Nat → Byte) (l n : Nat) : Vector Byte 64 :=
  Vector.ofFn fun k => padByte m l (64 * n + k.val)

/-- Word `t` from the words before it, `16 <= t <= 79` (R90). -/
def nextWord (w : Vector Word 80) (t : Nat) (lo : 16 ≤ t) (hi : t < 80) : Word :=
  rotl32 (w[t - 3] ^^^ w[t - 8] ^^^ w[t - 14] ^^^ w[t - 16]) 1

/-- The schedule with the `n` words from 16 on computed, in ascending order (R90). -/
def expandWords (w : Vector Word 80) : Nat → Vector Word 80
  | 0 => w
  | n + 1 =>
    if hn : 16 + n < 80 then
      (expandWords w n).set (16 + n) (nextWord (expandWords w n) (16 + n) (by omega) hn)
    else expandWords w n

/-- The 80 words of a block (R90). -/
def scheduleOf (blk : Vector Byte 64) : Vector Word 80 :=
  expandWords (loadWords blk (Vector.replicate 80 0)) 64

/-- `F(t, b, c, d)` (43_compression.md R131). -/
def roundF (t : Nat) : Word → Word → Word → Word :=
  if t < 20 then fSelect else if t < 40 then fXor else if t < 60 then fMajority else fXor

/-- `K(t)` (R131). -/
def roundK (t : Nat) : Word :=
  if t < 20 then k0 else if t < 40 then k1 else if t < 60 then k2 else k3

/-- Round `t` (R90, R132). -/
def oneRound (w : Vector Word 80) (t : Nat) (ht : t < 80) (r : Regs) : Regs where
  a := rotl32 r.a 5 + roundF t r.b r.c r.d + r.e + roundK t + w[t]
  b := r.a
  c := rotl32 r.b 30
  d := r.c
  e := r.d

/-- The rounds 0 to `n - 1`, in ascending order (R90). -/
def rounds (w : Vector Word 80) (r : Regs) : Nat → Regs
  | 0 => r
  | n + 1 => if hn : n < 80 then oneRound w n hn (rounds w r n) else rounds w r n

/-- The working registers at the start of a block: the hash state (R90, R130). -/
def initRegs (h : Vector Word 5) : Regs := ⟨h[0], h[1], h[2], h[3], h[4]⟩

/-- The hash state with the working registers added (R90, R137). -/
def addRegs (h : Vector Word 5) (r : Regs) : Vector Word 5 :=
  #v[h[0] + r.a, h[1] + r.b, h[2] + r.c, h[3] + r.d, h[4] + r.e]

/-- The hash state after the first `n` blocks, strictly in order (R90). -/
def hashBlocks (m : Nat → Byte) (l : Nat) : Nat → Vector Word 5
  | 0 => iv
  | n + 1 =>
    let h := hashBlocks m l n
    addRegs h (rounds (scheduleOf (messageBlock m l n)) (initRegs h) 80)

/-- `Digest(M)` of the `l` bytes `m` (R90). -/
def digestOf (m : Nat → Byte) (l : Nat) : Vector Byte 20 := serialize (hashBlocks m l (nblk l))

end Sys2Proof.Machine
end

