-- ==== Sys2Proof/Safety.lean ====
section
/-! DEFINITION. The terms claims are stated in: the invariant of the sequencer and the flags, the number of
micro-operations a run has left, what a run has computed at each of its steps, and what an engine leaves alone. -/

namespace Sys2Proof.Machine

/-! ## The invariant -/

/-- At most one of BUSY, DONE, ERR is 1 (10_state.md R29). -/
abbrev FlagsExclusive (s : State) : Prop :=
  ¬(busy s = true ∧ s.done = true) ∧ ¬(busy s = true ∧ s.err = true) ∧ ¬(s.done = true ∧ s.err = true)

/-- The block index in its range: below NBLK(LEN) in every phase of a run but DSER, where it is NBLK(LEN)
(10_state.md R26). -/
abbrev BlockIndexLegal (s : State) : Prop :=
  if s.phase = .dser then s.bi.toNat = nblk s.len.toNat else s.bi.toNat < nblk s.len.toNat

/-- The sequencer state in the ranges of R26 and of the preconditions of R114 to R150: during a run the length
is an accepted one, BI is in its range, and T is at least 16 in WXP, anything in RND, and 0 elsewhere. -/
abbrev SequencerLegal (s : State) : Prop :=
  s.phase ≠ .idle →
    s.len.toNat ≤ maxLen ∧ BlockIndexLegal s ∧
    (s.phase = .wxp → 16 ≤ s.t.val) ∧ (s.phase ≠ .wxp → s.phase ≠ .rnd → s.t.val = 0)

/-- The invariant every step keeps. -/
abbrev EngineInv (s : State) : Prop := FlagsExclusive s ∧ SequencerLegal s ∧ s.msg.wf = true

/-! ## Runs -/

/-- The 80 rounds of a block, 20 of each kind (40_host_operations.md R104). -/
def roundOps : List Instr :=
  List.replicate 20 .rnd0 ++ List.replicate 20 .rnd1 ++ List.replicate 20 .rnd2 ++ List.replicate 20 .rnd3

/-- The micro-operations of one block: `LDBLK WLD WXP^64 WINIT RND0^20 RND1^20 RND2^20 RND3^20 HACC` (R104). -/
def blockOps : List Instr :=
  [.ldblk, .wld] ++ List.replicate 64 .wxp ++ [.winit] ++ roundOps ++ [.hacc]

/-- The micro-operations of a run of `n` blocks (R104). -/
def runOps (n : Nat) : List Instr := (List.replicate n blockOps).flatten ++ [.dser]

/-- The micro-operations a run has left before PHASE is IDLE, read off the sequencer state (R104). -/
def opsLeft (s : State) : List Instr :=
  let later := runOps (nblk s.len.toNat - s.bi.toNat - 1)
  match s.phase with
  | .idle => []
  | .ldblk => blockOps ++ later
  | .wld => blockOps.drop 1 ++ later
  | .wxp => List.replicate (80 - s.t.val) .wxp ++ ([.winit] ++ roundOps ++ [.hacc] ++ later)
  | .winit => [.winit] ++ roundOps ++ [.hacc] ++ later
  | .rnd => roundOps.drop s.t.val ++ ([.hacc] ++ later)
  | .hacc => [.hacc] ++ later
  | .dser => [.dser]

/-- The micro-operations that `n` steps from `s` execute, in order: one for each turn of the engine. -/
def microTrace : Nat → State → List Instr
  | 0, _ => []
  | n + 1, s =>
    (if nextTurn s = .engine then [microOp s] else []) ++
      match step s with
      | .next u => microTrace n u
      | .fault _ => []
      | .refused _ => []

/-- The number of micro-operations of a run on a message of `l` bytes (R152). -/
def runLength (l : Nat) : Nat := 148 * nblk l + 1

/-- A turn that keeps the obligations of 20_memory.md R60 for a message of `l` bytes and is no reset. -/
def harmless (l : Nat) : Turn → Bool
  | .engine => true
  | .host _ => true
  | .reset => false
  | .writeMsg j _ => l ≤ j.toNat

/-- The state an accepted START leaves: the first micro-operation of a run is next (R94). -/
abbrev RunStarts (s : State) : Prop :=
  s.phase = .ldblk ∧ s.t.val = 0 ∧ s.bi = 0 ∧ s.h = iv ∧ s.done = false ∧ s.err = false ∧
  s.msgChanged = false ∧ s.len.toNat ≤ maxLen

/-- The working registers as a tuple. -/
def regsOf (s : State) : Regs := ⟨s.a, s.b, s.c, s.d, s.e⟩

/-- The schedule words below `n` are those of the block. -/
def WordsComputed (m : Nat → Byte) (l : Nat) (s : State) (n : Nat) : Prop :=
  ∀ i : Fin 80, i.val < n → s.w[i] = (scheduleOf (messageBlock m l s.bi.toNat))[i]

/-- What the phase of a run on the `l` bytes `m` has computed for the present block (R151). -/
def PhaseComputed (m : Nat → Byte) (l : Nat) (s : State) : Prop :=
  match s.phase with
  | .idle => False
  | .ldblk => True
  | .wld => s.blk = messageBlock m l s.bi.toNat
  | .wxp => WordsComputed m l s s.t.val
  | .winit => WordsComputed m l s 80
  | .rnd => WordsComputed m l s 80 ∧
      regsOf s = rounds (scheduleOf (messageBlock m l s.bi.toNat)) (initRegs s.h) s.t.val
  | .hacc => regsOf s = rounds (scheduleOf (messageBlock m l s.bi.toNat)) (initRegs s.h) 80
  | .dser => True

/-- The state is inside a run on the `l` bytes `m`, and holds what R151 says it holds there. -/
def RunComputes (m : Nat → Byte) (l : Nat) (s : State) : Prop :=
  s.len.toNat = l ∧ (∀ j, j < l → s.msg.read j = m j) ∧ s.msgChanged = false ∧
  s.done = false ∧ s.err = false ∧ SequencerLegal s ∧
  s.h = hashBlocks m l s.bi.toNat ∧ PhaseComputed m l s

/-! ## What stays -/

/-- Every piece of state the spec gives the engine, and its message space, is the same in both states. -/
abbrev SameEngine (s u : State) : Prop :=
  u.h = s.h ∧ u.a = s.a ∧ u.b = s.b ∧ u.c = s.c ∧ u.d = s.d ∧ u.e = s.e ∧ u.w = s.w ∧ u.blk = s.blk ∧
  u.digest = s.digest ∧ u.len = s.len ∧ u.phase = s.phase ∧ u.t = s.t ∧ u.bi = s.bi ∧
  u.done = s.done ∧ u.err = s.err ∧ u.msg = s.msg

end Sys2Proof.Machine
end

