-- ==== Sys2Proof/Certificates/Slice0/Obligations.lean ====
section
/-! DEFINITION. What is claimed of the model, from the numbered rules of spec/. Each docstring names the rule it
formalises, or says that the claim is derived. The model's own fields (`sched`, `rdValue`, `draws`,
`msgChanged`) are no state of the spec; where a rule says "no state changes", the statement shows which of
them move. -/

open Sys2Proof Sys2Proof.Machine

/-! ## Encoding -/

/-- Derived from R70 to R76: decoding the word of a well-formed instruction gives the instruction back, with
every operand at every value the encoding admits. -/
def Obligations.DecodeEncodeRoundTrip : Prop :=
  ∀ i : Instr, i.WellFormed → decode (encode i) = i

/-- Derived from R71, R74, R77: encoding what a word decodes to gives the word back, but for the bits its
operation ignores as an encoding (the `data` field of an RD, G in every phase but RND), which become 0. That the
encoder writes 0 for G outside RND is the model's choice (log 19); R71 says it of `data`. -/
def Obligations.EncodeDecodeIsCanonicalWord : Prop :=
  ∀ x : AccessWord, encode (decode x) = canonical x

/-- Derived from R77 ("No encoding is illegal and none traps") and R70: every word of either format decodes to
a well-formed instruction of the format's agent. -/
def Obligations.EveryWordDecodesToWellFormed : Prop :=
  (∀ x : AccessWord, (decode x).WellFormed) ∧
  (∀ w : BitVec 37, (decodeHaw w).agent = .host) ∧ (∀ s : BitVec 5, (decodeSel s).agent = .engine)

/-- R75: a word is the operation of the row with `w AND mask = match`; the rows are disjoint and cover every
37-bit value. -/
def Obligations.HostRowsSelectTheOperation : Prop :=
  (∀ w : BitVec 37, ∀ r ∈ hawTable, r.hits w = true ↔ (decodeHaw w).mnemonic = r.mnemonic) ∧
  (∀ w : BitVec 37, ∃ r ∈ hawTable, r.hits w = true) ∧
  (∀ w : BitVec 37, ∀ r ∈ hawTable, ∀ q ∈ hawTable, r.hits w = true → q.hits w = true → r = q)

/-- R76: a selector is the micro-operation of the row with `s AND mask = match`; the rows are disjoint and
cover all 32 values. -/
def Obligations.SelectorRowsSelectTheMicroOperation : Prop :=
  ∀ s : BitVec 5,
    (∀ r ∈ selTable, r.hits s = true ↔ (decodeSel s).mnemonic = r.mnemonic) ∧
    (∃ r ∈ selTable, r.hits s = true) ∧
    (∀ r ∈ selTable, ∀ q ∈ selTable, r.hits s = true → q.hits s = true → r = q)

/-- R74: the selector of a state is PHASE above `G = floor(T / 20)`, G is 0 to 3 as T never exceeds 79, and G is
decoded in the phase RND (code 5) only. -/
def Obligations.SelectorIsPhaseAndGroup : Prop :=
  (∀ s : State, (sel s).extractLsb' 2 3 = s.phase.code ∧
    ((sel s).extractLsb' 0 2).toNat = s.t.val / 20 ∧ s.t.val / 20 ≤ 3) ∧
  (∀ p : BitVec 3, ∀ g q : BitVec 2, p ≠ 5 → decodeSel (p ++ g) = decodeSel (p ++ q)) ∧
  (∀ g q : BitVec 2, decodeSel ((5 : BitVec 3) ++ g) = decodeSel ((5 : BitVec 3) ++ q) → g = q)

/-- R71: the fields of a host access word, `HAW = we * 2^36 + reg * 2^32 + data`, `we` tells RD from WR, and the
`data` field is ignored for an RD. -/
def Obligations.AccessWordIsItsFields : Prop :=
  (∀ w : BitVec 37, w.toNat = (hawWe w).toNat * 2 ^ 36 + (hawReg w).toNat * 2 ^ 32 + (hawData w).toNat) ∧
  (∀ (e : BitVec 1) (r : BitVec 4) (v : Word),
    (mkHaw e r v).toNat = e.toNat * 2 ^ 36 + r.toNat * 2 ^ 32 + v.toNat) ∧
  (∀ (r : BitVec 4) (v : Word),
    (decodeHaw (mkHaw 0 r v)).isRead = true ∧ (decodeHaw (mkHaw 1 r v)).isRead = false) ∧
  (∀ (r : BitVec 4) (v x : Word), decodeHaw (mkHaw 0 r v) = decodeHaw (mkHaw 0 r x))

/-- Derived: words written out from the encodings of R75 and R76 decode to what they stand for
(95_test_vectors.md V57). -/
def Obligations.SampleWordsDecode : Prop :=
  decodeHaw 0x10FFFFFFFF = .start 0xFFFFFFFF ∧ decodeHaw 0x1000000002 = .ctrlnop 2 ∧
  decodeHaw 0x1200000040 = .wrlenlo 0x40 ∧ decodeHaw 0x01DEADBEEF = .rdstatus ∧
  decodeHaw 0x0800000000 = .rddig4 ∧ decodeHaw 0x1500000000 = .wrdig03 5 0 ∧
  decodeHaw 0x0D00000000 = .rdrsv12to15 13 ∧ decodeHaw 0x1F00000001 = .wrrsv12to15 15 1 ∧
  decodeSel 0x04 = .ldblk ∧ decodeSel 0x0E = .wxp ∧ decodeSel 0x15 = .rnd1 ∧ decodeSel 0x1C = .dser

/-! ## The step -/

/-- Derived from R59 and R104: a step takes the next turn off the schedule and executes the instruction its word
decodes to; with no turn left the engine moves (R190; the model's choice, log 2, 3). -/
def Obligations.StepExecutesTheDecodedInstruction : Prop :=
  (∀ s w rest, s.sched = .host w :: rest → step s = exec (decodeHaw w) { s with sched := rest }) ∧
  (∀ s rest, s.sched = .engine :: rest → step s = exec (decodeSel (sel s)) { s with sched := rest }) ∧
  (∀ s, s.sched = [] → step s = exec (decodeSel (sel s)) s) ∧
  (∀ s rest, s.sched = .reset :: rest → step s = .next (resetEvent { s with sched := rest })) ∧
  (∀ s j x rest, s.sched = .writeMsg j x :: rest →
    step s = .next (hostWriteMsg j x { s with sched := rest }))

/-- Derived (the model's own interface, log 5): a word of the opcode table placed by `withFetchWord` is the
instruction that the very next step executes, on a state that differs from `s` in PHASE and T at most. -/
def Obligations.PlacedWordIsExecutedNext : Prop :=
  ∀ (s : State) (nbits w : Nat) (i : Instr), decodeTableWord nbits w = some i →
    ∃ u : State, step (s.withFetchWord nbits w) = exec i u ∧
      u = { s with phase := u.phase, t := u.t } ∧ (i.agent = .host → u = s) ∧
      (i.agent = .engine → microOp u = i)

/-- R27: the eight PHASE codes, and the micro-operation the engine executes in each phase, in RND by
`floor(T / 20)`. -/
def Obligations.PhaseSelectsTheMicroOperation : Prop :=
  (Phase.code .idle = 0 ∧ Phase.code .ldblk = 1 ∧ Phase.code .wld = 2 ∧ Phase.code .wxp = 3 ∧
    Phase.code .winit = 4 ∧ Phase.code .rnd = 5 ∧ Phase.code .hacc = 6 ∧ Phase.code .dser = 7) ∧
  (∀ s : State, microOp s =
    match s.phase with
    | .idle => .idle
    | .ldblk => .ldblk
    | .wld => .wld
    | .wxp => .wxp
    | .winit => .winit
    | .rnd => if s.t.val < 20 then .rnd0 else if s.t.val < 40 then .rnd1
        else if s.t.val < 60 then .rnd2 else .rnd3
    | .hacc => .hacc
    | .dser => .dser)

/-! ## Host writes -/

/-- R94 and the order of tests of R164: a START while busy is ignored; then a length above MAXLEN raises
LengthOverflow; otherwise the START is accepted. `msgChanged` is the model's (log 12). -/
def Obligations.StartIsIgnoredRefusedOrAccepted : Prop :=
  (∀ w : BitVec 37, w &&& 0x1F00000001 = 0x1000000001 → decodeHaw w = .start (hawData w)) ∧
  ∀ (v : Word) (s : State),
    (s.phase ≠ .idle → exec (.start v) s = .next s) ∧
    (s.phase = .idle → 2 ^ 61 - 1 < s.len.toNat →
      exec (.start v) s = .next { s with err := true, done := false }) ∧
    (s.phase = .idle → s.len.toNat ≤ 2 ^ 61 - 1 →
      exec (.start v) s = .next { s with
        err := false, done := false
        h := #v[0x67452301, 0xEFCDAB89, 0x98BADCFE, 0x10325476, 0xC3D2E1F0]
        bi := 0, t := 0, phase := .ldblk, msgChanged := false })

/-- R161: LengthOverflow is raised by START alone, when it is processed with LEN above MAXLEN, and all it does is
`ERR <- 1` and `DONE <- 0`; STATUS then reads 4. -/
def Obligations.LengthOverflowIsRaisedByStartAlone : Prop :=
  (∀ (v : Word) (s : State), s.phase = .idle → maxLen < s.len.toNat →
    ∃ u, exec (.start v) s = .next u ∧ u = { s with err := true, done := false } ∧ statusWord u = 4) ∧
  (∀ (i : Instr) (s u : State), exec i s = .next u → s.err = false → u.err = true →
    (∃ v, i = .start v) ∧ s.phase = .idle ∧ maxLen < s.len.toNat) ∧
  maxLen = 0x1FFFFFFFFFFFFFFF

/-- R166: ERR stays 1 until an accepted START or a reset; a second START with LEN still too large leaves what
the first left. -/
def Obligations.ErrStaysUntilAcceptedStartOrReset : Prop :=
  (∀ s u : State, step s = .next u → s.err = true → u.err = false →
    nextTurn s = .reset ∨
    ∃ w, nextTurn s = .host w ∧ (∃ v, decodeHaw w = .start v) ∧ s.phase = .idle ∧ s.len.toNat ≤ maxLen) ∧
  (∀ (v v' : Word) (s u : State), s.phase = .idle → maxLen < s.len.toNat →
    exec (.start v) s = .next u → exec (.start v') u = .next u)

/-- R95. -/
def Obligations.CtrlnopHasNoEffect : Prop :=
  (∀ w : BitVec 37, w &&& 0x1F00000001 = 0x1000000000 → decodeHaw w = .ctrlnop (hawData w)) ∧
  ∀ (v : Word) (s : State), exec (.ctrlnop v) s = .next s

/-- R96: while idle the low half of LEN is written and the high half untouched; while busy nothing changes. -/
def Obligations.WrlenloWritesTheLowHalf : Prop :=
  (∀ w : BitVec 37, w &&& 0x1F00000000 = 0x1200000000 → decodeHaw w = .wrlenlo (hawData w)) ∧
  ∀ (v : Word) (s : State),
    (s.phase ≠ .idle → exec (.wrlenlo v) s = .next s) ∧
    (s.phase = .idle → ∃ l : BitVec 64, exec (.wrlenlo v) s = .next { s with len := l } ∧
      l.extractLsb' 0 32 = v ∧ l.extractLsb' 32 32 = s.len.extractLsb' 32 32)

/-- R97: while idle the high half of LEN is written and the low half untouched; while busy nothing changes. -/
def Obligations.WrlenhiWritesTheHighHalf : Prop :=
  (∀ w : BitVec 37, w &&& 0x1F00000000 = 0x1300000000 → decodeHaw w = .wrlenhi (hawData w)) ∧
  ∀ (v : Word) (s : State),
    (s.phase ≠ .idle → exec (.wrlenhi v) s = .next s) ∧
    (s.phase = .idle → ∃ l : BitVec 64, exec (.wrlenhi v) s = .next { s with len := l } ∧
      l.extractLsb' 32 32 = v ∧ l.extractLsb' 0 32 = s.len.extractLsb' 0 32)

/-- R103 and R34: writes to read-only and reserved registers change nothing, in any phase, and reads of the
reserved registers return 0. -/
def Obligations.AccessesWithoutEffect : Prop :=
  (∀ (s : State) (r : BitVec 4) (v : Word),
    exec (.wrstatus v) s = .next s ∧ exec (.wrdig03 r v) s = .next s ∧ exec (.wrdig4 v) s = .next s ∧
    exec (.wrrsv9 v) s = .next s ∧ exec (.wrrsv10to11 r v) s = .next s ∧
    exec (.wrrsv12to15 r v) s = .next s ∧
    exec .rdrsv9 s = .next { s with rdValue := some 0 } ∧
    exec (.rdrsv10to11 r) s = .next { s with rdValue := some 0 } ∧
    exec (.rdrsv12to15 r) s = .next { s with rdValue := some 0 }) ∧
  (∀ (w : BitVec 37) (s : State), hawWe w = true → hawReg w = 1 ∨ 4 ≤ (hawReg w).toNat →
    exec (decodeHaw w) s = .next s) ∧
  (∀ (w : BitVec 37) (s : State), hawWe w = false → 9 ≤ (hawReg w).toNat →
    exec (decodeHaw w) s = .next { s with rdValue := some 0 })

/-! ## Host reads -/

/-- R98 and R30: CTRL reads 0 in every state; a write to it is START when bit 0 is 1 and has no effect when it
is 0, whatever bits 31:1 are. -/
def Obligations.CtrlReadsZeroAndStartsByBitZero : Prop :=
  (∀ w : BitVec 37, w &&& 0x1F00000000 = 0x0000000000 → decodeHaw w = .rdctrl) ∧
  (∀ s : State, exec .rdctrl s = .next { s with rdValue := some 0 }) ∧
  (∀ (w : BitVec 37) (s : State), hawWe w = true → hawReg w = 0 →
    exec (decodeHaw w) s = if (hawData w).getLsbD 0 then exec (.start 1) s else .next s)

/-- R99 and R31: STATUS reads `BUSY + 2*DONE + 4*ERR` and the read changes nothing; with at most one flag set
(R29) the value is 0, 1, 2 or 4; a write has no effect. -/
def Obligations.StatusReadsTheFlags : Prop :=
  (∀ w : BitVec 37, w &&& 0x1F00000000 = 0x0100000000 → decodeHaw w = .rdstatus) ∧
  (∀ s : State, ∃ v : Word, exec .rdstatus s = .next { s with rdValue := some v } ∧
    v.toNat = (if s.phase = .idle then 0 else 1) + 2 * s.done.toNat + 4 * s.err.toNat ∧
    (FlagsExclusive s → v = 0 ∨ v = 1 ∨ v = 2 ∨ v = 4)) ∧
  (∀ (v : Word) (s : State), exec (.wrstatus v) s = .next s) ∧
  statusWord State.reset = 0

/-- R100 and R101. -/
def Obligations.LengthReadsReturnItsHalves : Prop :=
  (∀ w : BitVec 37, w &&& 0x1F00000000 = 0x0200000000 → decodeHaw w = .rdlenlo) ∧
  (∀ w : BitVec 37, w &&& 0x1F00000000 = 0x0300000000 → decodeHaw w = .rdlenhi) ∧
  (∀ s : State, exec .rdlenlo s = .next { s with rdValue := some (s.len.extractLsb' 0 32) }) ∧
  (∀ s : State, exec .rdlenhi s = .next { s with rdValue := some (s.len.extractLsb' 32 32) })

/-- R102: with DONE = 1 the read returns the big-endian word of four digest bytes; with DONE = 0 it returns a
value drawn afresh, which nothing constrains (`draws` is the model's counter, log 8). -/
def Obligations.DigestReadsReturnWordsOrAnyValue : Prop :=
  (∀ w : BitVec 37,
    (w &&& 0x1F00000000 = 0x0400000000 → decodeHaw w = .rddig0) ∧
    (w &&& 0x1F00000000 = 0x0500000000 → decodeHaw w = .rddig1) ∧
    (w &&& 0x1F00000000 = 0x0600000000 → decodeHaw w = .rddig2) ∧
    (w &&& 0x1F00000000 = 0x0700000000 → decodeHaw w = .rddig3) ∧
    (w &&& 0x1F00000000 = 0x0800000000 → decodeHaw w = .rddig4)) ∧
  ∀ p ∈ [(Instr.rddig0, (0 : Fin 5)), (.rddig1, 1), (.rddig2, 2), (.rddig3, 3), (.rddig4, 4)],
    ∀ s : State,
      (s.done = true → exec p.1 s = .next { s with
        rdValue := some (be32 s.digest[4 * p.2.val] s.digest[4 * p.2.val + 1] s.digest[4 * p.2.val + 2]
          s.digest[4 * p.2.val + 3]) }) ∧
      (s.done = false → exec p.1 s = .next { s with
        rdValue := some (Config.freeWord s.stream s.draws), draws := s.draws + 1 })

/-- Derived from R93 ("A RD changes no state, ever") and from decision D8: every read completes and leaves the
engine and the message space as they were, and while the engine is busy so does every host operation. -/
def Obligations.ReadsAndBusyHostOperationsChangeNothing : Prop :=
  (∀ (i : Instr) (s : State), i.isRead = true → ∃ u, exec i s = .next u ∧ SameEngine s u) ∧
  (∀ (w : BitVec 37) (s : State), busy s = true → ∃ u, exec (decodeHaw w) s = .next u ∧ SameEngine s u)

/-! ## Micro-operations -/

/-- Derived from R105: IDLE changes no state, and nothing lifts it but an accepted START. That IDLE is a step which
completes and changes nothing, where R105 says that no step is enabled, is the model's choice (log 4); so is that the
scratch state of an idle engine stays (log 10). -/
def Obligations.IdleWaitsForAnAcceptedStart : Prop :=
  (∀ q : BitVec 5, q &&& 0x1C = 0x00 → decodeSel q = .idle) ∧
  (∀ s : State, exec .idle s = .next s) ∧
  (∀ s u : State, s.phase = .idle → step s = .next u → u.phase ≠ .idle →
    u.phase = .ldblk ∧ s.len.toNat ≤ maxLen ∧
    ∃ w, nextTurn s = .host w ∧ ∃ v, decodeHaw w = .start v)

/-- R114: LDBLK writes every byte of BLK with the byte of the padded message, moves to WLD and changes nothing
else; it reads exactly the offsets of the block below LEN, ascending, and no other byte of the message space
has an effect. -/
def Obligations.LdblkLoadsThePaddedBlock : Prop :=
  (∀ q : BitVec 5, q &&& 0x1C = 0x04 → decodeSel q = .ldblk) ∧
  (∀ s : State, s.phase = .ldblk → s.len.toNat ≤ maxLen → s.bi.toNat < nblk s.len.toNat →
    exec .ldblk s = .next { s with
      blk := Vector.ofFn fun k : Fin 64 =>
        let j := 64 * s.bi.toNat + k.val
        if j < s.len.toNat then s.msg.read j
        else if j = s.len.toNat then 0x80
        else if j < 64 * nblk s.len.toNat - 8 then 0x00
        else byteBe (8 * s.len.toNat) 8 (j - (64 * nblk s.len.toNat - 8))
      phase := .wld }) ∧
  (∀ l b : Nat, blockReads l b = List.range' (64 * b) (min l (64 * b + 64) - 64 * b)) ∧
  (∀ (s : State) (m : Memory) (u : State), (∀ j ∈ blockReads s.len.toNat s.bi.toNat, m.read j = s.msg.read j) →
    exec .ldblk s = .next u → exec .ldblk { s with msg := m } = .next { u with msg := m })

/-- Derived from R50 (log 16): no instruction is refused, and the one that stops is an LDBLK that is to read an
offset at or above 2^61, which takes a LEN above MAXLEN; it stops at the first offset of its block. -/
def Obligations.OnlyLdblkBeyondTheSpaceStops : Prop :=
  (∀ (i : Instr) (s : State) (r : Refusal), exec i s ≠ .refused r) ∧
  (∀ (i : Instr) (s : State) (f : Fault), exec i s = .fault f →
    i = .ldblk ∧ maxLen < s.len.toNat ∧ 2 ^ 61 ≤ 64 * s.bi.toNat) ∧
  (∀ (s : State) (j : Nat), 2 ^ 61 ≤ j → j < s.len.toNat → j / 64 = s.bi.toNat →
    exec .ldblk s = .fault (.noSuchOffset (64 * s.bi.toNat)))

/-- R120: WLD loads the 16 big-endian words of the block, sets T to 16 and moves to WXP. -/
def Obligations.WldLoadsTheBlockWords : Prop :=
  (∀ q : BitVec 5, q &&& 0x1C = 0x08 → decodeSel q = .wld) ∧
  ∀ s : State, s.phase = .wld → ∃ w : Vector Word 80,
    exec .wld s = .next { s with w := w, t := 16, phase := .wxp } ∧
    (∀ t : Fin 16, w[t.val].toNat = s.blk[4 * t.val].toNat * 2 ^ 24 + s.blk[4 * t.val + 1].toNat * 2 ^ 16 +
      s.blk[4 * t.val + 2].toNat * 2 ^ 8 + s.blk[4 * t.val + 3].toNat) ∧
    (∀ t : Fin 80, 16 ≤ t.val → w[t] = s.w[t])

/-- R121: WXP writes `W[T]` from four earlier words and no other word; T counts up, or at 79 returns to 0 with
PHASE moving to WINIT. -/
def Obligations.WxpExpandsOneWord : Prop :=
  (∀ q : BitVec 5, q &&& 0x1C = 0x0C → decodeSel q = .wxp) ∧
  ∀ s : State, s.phase = .wxp → 16 ≤ s.t.val →
    ∃ x : Word, x = rotl32 (s.w[s.t.val - 3] ^^^ s.w[s.t.val - 8] ^^^ s.w[s.t.val - 14] ^^^ s.w[s.t.val - 16]) 1 ∧
      (s.t.val = 79 → exec .wxp s = .next { s with w := s.w.set s.t.val x, t := 0, phase := .winit }) ∧
      (∀ h : s.t.val < 79,
        exec .wxp s = .next { s with w := s.w.set s.t.val x, t := ⟨s.t.val + 1, by omega⟩ })

/-- R130. -/
def Obligations.WinitLoadsTheWorkingRegisters : Prop :=
  (∀ q : BitVec 5, q &&& 0x1C = 0x10 → decodeSel q = .winit) ∧
  ∀ s : State, s.phase = .winit →
    exec .winit s = .next { s with
      a := s.h[0], b := s.h[1], c := s.h[2], d := s.h[3], e := s.h[4], t := 0, phase := .rnd }

/-- R131, R132 and R133 to R136: the round step with the function and the constant of each of RND0 to RND3. -/
def Obligations.RoundsShiftTheWorkingRegisters : Prop :=
  (decodeSel 0x14 = .rnd0 ∧ decodeSel 0x15 = .rnd1 ∧ decodeSel 0x16 = .rnd2 ∧ decodeSel 0x17 = .rnd3) ∧
  ∀ p ∈ [(Instr.rnd0, (fun b c d : Word => (b &&& c) ||| (~~~b &&& d)), (0x5A827999 : Word)),
      (.rnd1, (fun b c d => b ^^^ c ^^^ d), 0x6ED9EBA1),
      (.rnd2, (fun b c d => (b &&& c) ||| (b &&& d) ||| (c &&& d)), 0x8F1BBCDC),
      (.rnd3, (fun b c d => b ^^^ c ^^^ d), 0xCA62C1D6)],
    ∀ s : State, s.phase = .rnd →
      (s.t.val = 79 → exec p.1 s = .next { s with
        a := rotl32 s.a 5 + p.2.1 s.b s.c s.d + s.e + p.2.2 + s.w[s.t]
        b := s.a, c := rotl32 s.b 30, d := s.c, e := s.d, t := 0, phase := .hacc }) ∧
      (∀ h : s.t.val < 79, exec p.1 s = .next { s with
        a := rotl32 s.a 5 + p.2.1 s.b s.c s.d + s.e + p.2.2 + s.w[s.t]
        b := s.a, c := rotl32 s.b 30, d := s.c, e := s.d, t := ⟨s.t.val + 1, by omega⟩ })

/-- R137: HACC adds A to E into H word by word, counts the block, and goes on to DSER after the last block and
to LDBLK otherwise. -/
def Obligations.HaccAccumulatesAndChoosesTheNextPhase : Prop :=
  (∀ q : BitVec 5, q &&& 0x1C = 0x18 → decodeSel q = .hacc) ∧
  ∀ s : State, s.phase = .hacc → s.bi.toNat < nblk s.len.toNat →
    ∃ n : BitVec 64, n.toNat = s.bi.toNat + 1 ∧
      (s.bi.toNat + 1 = nblk s.len.toNat → exec .hacc s = .next { s with
        h := #v[s.h[0] + s.a, s.h[1] + s.b, s.h[2] + s.c, s.h[3] + s.d, s.h[4] + s.e]
        bi := n, phase := .dser }) ∧
      (s.bi.toNat + 1 ≠ nblk s.len.toNat → exec .hacc s = .next { s with
        h := #v[s.h[0] + s.a, s.h[1] + s.b, s.h[2] + s.c, s.h[3] + s.d, s.h[4] + s.e]
        bi := n, phase := .ldblk })

/-- R150, for a run whose message the host left alone (R60): all 20 bytes, DONE and PHASE change in the one step
and nothing else does; byte `4i+k` is byte `k` of `H[i]`, most significant first. -/
def Obligations.DserSerializesTheDigest : Prop :=
  (∀ q : BitVec 5, q &&& 0x1C = 0x1C → decodeSel q = .dser) ∧
  ∀ s : State, s.phase = .dser → s.msgChanged = false →
    ∃ g : Vector Byte 20, exec .dser s = .next { s with digest := g, done := true, phase := .idle } ∧
      ∀ i : Fin 5, g[4 * i.val] = s.h[i].extractLsb' 24 8 ∧ g[4 * i.val + 1] = s.h[i].extractLsb' 16 8 ∧
        g[4 * i.val + 2] = s.h[i].extractLsb' 8 8 ∧ g[4 * i.val + 3] = s.h[i].extractLsb' 0 8

/-- Derived from R60, R184 and 93_implementation_defined.md U6: a write of a message byte below LEN during a run
is noted, one at or above LEN or outside a run is not, and a run with a noted write still ends with DONE set, its
20 digest bytes free values; nothing else differs. `msgChanged` and `draws` are the model's (log 12), and so is it
that a write after DSER, before the host has read DONE = 1, is not noted (log 25). -/
def Obligations.ChangedMessageLeavesTheDigestFree : Prop :=
  (∀ (j : BitVec 61) (x : Byte) (s : State),
    (hostWriteMsg j x s).msgChanged = true ↔ s.msgChanged = true ∨ (s.phase ≠ .idle ∧ j.toNat < s.len.toNat)) ∧
  (∀ s : State, s.msgChanged = true →
    exec .dser s = .next { s with
      digest := Vector.ofFn fun n : Fin 20 => Config.freeByte s.stream (s.draws + n.val)
      draws := s.draws + 20, done := true, phase := .idle })

/-! ## Padding and arithmetic -/

/-- R110: the padded message is the smallest multiple of 64 bytes that is at least `L + 9` long. -/
def Obligations.BlockCountIsTheSmallest : Prop :=
  (∀ l : Nat, nblk l = (l + 8) / 64 + 1) ∧
  (∀ l : Nat, l + 9 ≤ 64 * nblk l ∧ ∀ n, l + 9 ≤ 64 * n → nblk l ≤ n) ∧
  (∀ l : Nat, (l ≤ 55 → nblk l = 1) ∧ (56 ≤ l → l ≤ 119 → nblk l = 2) ∧ (120 ≤ l → l ≤ 183 → nblk l = 3)) ∧
  nblk maxLen = 2 ^ 55 + 1

/-- R112: the properties (1) to (6) of the padded message. -/
def Obligations.PaddedMessageProperties : Prop :=
  ∀ (m : Nat → Byte) (l : Nat), l ≤ maxLen →
    (64 * nblk l * 8) % 512 = 0 ∧
    (∀ j, j < l → padByte m l j = m j) ∧
    padByte m l l = 0x80 ∧
    ((List.range 8).map fun k => (padByte m l (64 * nblk l - 8 + k)).toNat * 2 ^ (8 * (7 - k))).sum = 8 * l ∧
    (∀ j, l < j → j < 64 * nblk l - 8 → padByte m l j = 0x00) ∧
    l + 9 ≤ 64 * nblk l ∧ 64 * nblk l ≤ l + 72

/-- Derived from R51 and R114: the loads of a run, block after block, read exactly the offsets below LEN, each once,
in ascending order, and offset `j` is read by the load of block `floor(j / 64)`. -/
def Obligations.RunReadsEachOffsetOnceAscending : Prop :=
  (∀ l : Nat, (List.range (nblk l)).flatMap (blockReads l) = List.range l) ∧
  (∀ l b j : Nat, j ∈ blockReads l b ↔ j < l ∧ b = j / 64) ∧
  blockReads 0 0 = []

/-- Derived from R10: `rotl32` is a true rotation, `+32` wraps at 2^32, and NOT is `0xFFFFFFFF - x`. -/
def Obligations.WordOperationsRotateAndWrap : Prop :=
  (∀ (x : Word) (n : Nat), 0 < n → n < 32 →
    ∀ i : Nat, i < 32 → (rotl32 x n).getLsbD i = x.getLsbD ((i + 32 - n) % 32)) ∧
  (∀ x y : Word, (x + y).toNat = (x.toNat + y.toNat) % 2 ^ 32) ∧
  (∀ x : Word, ~~~x = 0xFFFFFFFF - x)

/-- R11: big-endian assembly and its inverse. -/
def Obligations.BigEndianAssemblyAndItsInverse : Prop :=
  (∀ b0 b1 b2 b3 : Byte,
    (be32 b0 b1 b2 b3).toNat = b0.toNat * 2 ^ 24 + b1.toNat * 2 ^ 16 + b2.toNat * 2 ^ 8 + b3.toNat) ∧
  (∀ v n k : Nat, k < n → (byteBe v n k).toNat = v / 2 ^ (8 * (n - 1 - k)) % 256) ∧
  (∀ v : Word, be32 (byteBe v.toNat 4 0) (byteBe v.toNat 4 1) (byteBe v.toNat 4 2) (byteBe v.toNat 4 3) = v)

/-- Derived from R122: an all-zero block has an all-zero schedule. -/
def Obligations.ZeroBlockHasZeroSchedule : Prop :=
  scheduleOf (Vector.replicate 64 0) = Vector.replicate 80 0

/-- Derived from R90 and R91 item 4: the digest of the empty message is the one the document prints, whatever
the message space holds. The initial hash values are those of R7 (log 1). -/
def Obligations.EmptyMessageHasTheKnownDigest : Prop :=
  ∀ m : Nat → Byte, digestOf m 0 =
    #v[0xda, 0x39, 0xa3, 0xee, 0x5e, 0x6b, 0x4b, 0x0d, 0x32, 0x55, 0xbf, 0xef, 0x95, 0x60, 0x18, 0x90,
       0xaf, 0xd8, 0x07, 0x09]

/-! ## Who writes what -/

/-- Derived from R21 to R26, R28 and R32 (the "written by" column of 10_state.md): each piece of the engine's
state is left alone by every instruction but the ones named, PHASE and T by every host operation but START, and
the message space by every instruction (R52). -/
def Obligations.OnlyTheNamedInstructionsWrite : Prop :=
  ∀ (i : Instr) (s u : State), exec i s = .next u →
    ((∀ v, i ≠ .start v) → i ≠ .hacc → u.h = s.h ∧ u.bi = s.bi) ∧
    (i ≠ .winit → i ≠ .rnd0 → i ≠ .rnd1 → i ≠ .rnd2 → i ≠ .rnd3 → regsOf u = regsOf s) ∧
    (i ≠ .wld → i ≠ .wxp → u.w = s.w) ∧
    (i ≠ .ldblk → u.blk = s.blk) ∧
    (i ≠ .dser → u.digest = s.digest) ∧
    ((∀ v, i ≠ .wrlenlo v) → (∀ v, i ≠ .wrlenhi v) → u.len = s.len) ∧
    ((∀ v, i ≠ .start v) → i ≠ .dser → u.done = s.done) ∧
    ((∀ v, i ≠ .start v) → u.err = s.err) ∧
    ((∀ v, i ≠ .start v) → i.agent = .host → u.phase = s.phase ∧ u.t = s.t) ∧
    (u.msg = s.msg ∧ ∀ j, u.msg.read j = s.msg.read j)

/-- Derived from R52 and R17: the message space is changed by the host's message writes alone; such a write
changes the byte at its offset and no other, and nothing of the engine. That this holds of a write below LEN
after DSER, before the host has read DONE = 1, is the model's choice (log 25). -/
def Obligations.OnlyTheHostWritesTheMessage : Prop :=
  (∀ s u : State, step s = .next u → (∀ j x, nextTurn s ≠ .writeMsg j x) → u.msg = s.msg) ∧
  (∀ (s u : State) (j : BitVec 61) (x : Byte), s.msg.wf = true → nextTurn s = .writeMsg j x →
    step s = .next u →
    u.msg.read j.toNat = x ∧ (∀ i, i ≠ j.toNat → u.msg.read i = s.msg.read i) ∧
    SameEngine s { u with msg := s.msg })

/-- R61: LEN is fixed for the run. Only a reset, which ends the run, is shut out. -/
def Obligations.LengthIsFixedDuringARun : Prop :=
  (∀ s u : State, busy s = true → nextTurn s ≠ .reset → step s = .next u → u.len = s.len) ∧
  (∀ (v : Word) (s : State), busy s = true →
    exec (.wrlenlo v) s = .next s ∧ exec (.wrlenhi v) s = .next s)

/-- Derived from R25, the sense in which the digest is immutable: while DONE is 1 no step but a reset writes DIGEST, and only
a START that the engine processes ends DONE. That a message write before the host has read DONE = 1 leaves DIGEST
too is the model's choice (log 25). -/
def Obligations.DigestStaysWhileDone : Prop :=
  ∀ s u : State, FlagsExclusive s → s.done = true → nextTurn s ≠ .reset → step s = .next u →
    u.digest = s.digest ∧
    (u.done = false → ∃ w, nextTurn s = .host w ∧ ∃ v, decodeHaw w = .start v)

/-- Derived from R33 and R62: after DSER DONE is 1, and a read of DIGESTk returns the final `H[k]` and changes nothing. -/
def Obligations.DigestReadsReturnTheFinalHash : Prop :=
  ∀ (s u : State), s.phase = .dser → s.msgChanged = false → exec .dser s = .next u →
    u.done = true ∧
    ∀ p ∈ [(Instr.rddig0, (0 : Fin 5)), (.rddig1, 1), (.rddig2, 2), (.rddig3, 3), (.rddig4, 4)],
      exec p.1 u = .next { u with rdValue := some s.h[p.2] }

/-! ## Reset -/

/-- Derived from R38: what the spec gives after reset, and what the host reads then. The data registers are unspecified there
and not spoken of here; a read of DIGESTk returns a free value. -/
def Obligations.ResetStateIsTheSpecs : Prop :=
  State.reset.phase = .idle ∧ State.reset.t.val = 0 ∧ State.reset.bi = 0 ∧ State.reset.len = 0 ∧
  State.reset.done = false ∧ State.reset.err = false ∧
  (∀ i ∈ [Instr.rdstatus, .rdlenlo, .rdlenhi, .rdctrl],
    exec i State.reset = .next { State.reset with rdValue := some 0 }) ∧
  (∀ i ∈ [Instr.rddig0, .rddig1, .rddig2, .rddig3, .rddig4],
    ∃ n, exec i State.reset =
      .next { State.reset with rdValue := some (Config.freeWord State.reset.stream n), draws := n + 1 })

/-- Derived from R180 and R182: the reset event, in any phase, puts the control state at its reset values, ends a run, and
leaves the message space alone. The data registers are unspecified and not spoken of. -/
def Obligations.ResetEventEndsARun : Prop :=
  ∀ s : State, nextTurn s = .reset → ∃ u, step s = .next u ∧
    u.phase = .idle ∧ u.t.val = 0 ∧ u.bi = 0 ∧ u.len = 0 ∧ u.done = false ∧ u.err = false ∧ u.msg = s.msg

/-! ## The sequencer, the flags and the invariant -/

/-- R138: the transitions of the sequencer: the accepted START out of IDLE, and each micro-operation's. -/
def Obligations.SequencerTransitions : Prop :=
  (∀ (v : Word) (s u : State), s.phase = .idle → s.len.toNat ≤ maxLen → exec (.start v) s = .next u →
    u.phase = .ldblk ∧ u.t.val = 0 ∧ u.bi = 0) ∧
  ∀ s u : State, SequencerLegal s → s.phase ≠ .idle → nextTurn s = .engine → step s = .next u →
    (s.phase = .ldblk → u.phase = .wld ∧ u.t = s.t ∧ u.bi = s.bi) ∧
    (s.phase = .wld → u.phase = .wxp ∧ u.t.val = 16 ∧ u.bi = s.bi) ∧
    (s.phase = .wxp → s.t.val < 79 → u.phase = .wxp ∧ u.t.val = s.t.val + 1 ∧ u.bi = s.bi) ∧
    (s.phase = .wxp → s.t.val = 79 → u.phase = .winit ∧ u.t.val = 0 ∧ u.bi = s.bi) ∧
    (s.phase = .winit → u.phase = .rnd ∧ u.t.val = 0 ∧ u.bi = s.bi) ∧
    (s.phase = .rnd → s.t.val < 79 → u.phase = .rnd ∧ u.t.val = s.t.val + 1 ∧ u.bi = s.bi) ∧
    (s.phase = .rnd → s.t.val = 79 → u.phase = .hacc ∧ u.t.val = 0 ∧ u.bi = s.bi) ∧
    (s.phase = .hacc → s.bi.toNat + 1 < nblk s.len.toNat →
      u.phase = .ldblk ∧ u.t.val = 0 ∧ u.bi.toNat = s.bi.toNat + 1) ∧
    (s.phase = .hacc → s.bi.toNat + 1 = nblk s.len.toNat →
      u.phase = .dser ∧ u.t.val = 0 ∧ u.bi.toNat = s.bi.toNat + 1) ∧
    (s.phase = .dser → u.phase = .idle ∧ u.t = s.t ∧ u.bi = s.bi)

/-- R29: at most one of BUSY, DONE, ERR is 1, at reset all three are 0, and every step keeps it. -/
def Obligations.AtMostOneFlagIsSet : Prop :=
  (busy State.reset = false ∧ State.reset.done = false ∧ State.reset.err = false) ∧
  ∀ s u : State, FlagsExclusive s → step s = .next u → FlagsExclusive u

/-- Derived: the invariant holds after reset. -/
def Obligations.InvariantHoldsAtReset : Prop := EngineInv State.reset

/-- Derived from R26, R29 and the preconditions of R114 to R150: every step, of any agent, keeps the invariant:
the flags exclude each other, the sequencer state is in its ranges, the message space is in canonical form. -/
def Obligations.StepKeepsTheInvariant : Prop :=
  ∀ s u : State, EngineInv s → step s = .next u → EngineInv u

/-- Derived from R153 ("No micro-operation can fault, stall for ever, or wait for the host") and R160: in a state
that satisfies the invariant every step completes. -/
def Obligations.StepsCompleteUnderTheInvariant : Prop :=
  ∀ s : State, EngineInv s → ∃ u, step s = .next u

/-- Derived from R50 (log 11): every step keeps the message space in canonical form, from any state, so equal
contents stay equal data. -/
def Obligations.StepKeepsTheMessageCanonical : Prop :=
  ∀ s u : State, s.msg.wf = true → step s = .next u → u.msg.wf = true

/-! ## Whole runs -/

/-- Derived from R104 and R152: each turn of the engine executes the first of the micro-operations the run has
left, and every other turn but a reset leaves them all, so that their number is a measure of the run. -/
def Obligations.RunProgressesByOneMicroOperation : Prop :=
  ∀ s u : State, SequencerLegal s → s.phase ≠ .idle → step s = .next u →
    (nextTurn s = .engine → opsLeft s = microOp s :: opsLeft u) ∧
    (nextTurn s ≠ .engine → nextTurn s ≠ .reset → opsLeft u = opsLeft s)

/-- Derived from R151: a state inside a run on the `l` bytes `m` holds what the contract has computed up to
there, and every turn but a reset or a forbidden message write (R60) keeps that, until DSER leaves the digest
of the message with DONE set. -/
def Obligations.RunComputesTheContractStepByStep : Prop :=
  ∀ (m : Nat → Byte) (l : Nat) (s u : State), s.msg.wf = true → RunComputes m l s →
    harmless l (nextTurn s) = true → step s = .next u →
    RunComputes m l u ∨
    (s.phase = .dser ∧ u.phase = .idle ∧ u.done = true ∧ u.err = false ∧ u.digest = digestOf m l)

/-- Derived from R151 and R190: a START accepted with `LEN = L` begins a run that, under any interleaving with host operations that
keeps the obligations of R60 and has no reset, executes the micro-operation sequence of R104 and ends idle with
DONE = 1, ERR = 0 and the digest of the message at START; whenever WINIT is next, W is the block's schedule, and
between blocks H is the hash state of the blocks so far. The schedule `turns` is any with fewer turns of the
engine than the run has micro-operations. That the run ends, which R151 does not say, is the model's choice: when the schedule is used up the
engine goes on alone (R190; log 3). -/
def Obligations.AcceptedStartComputesTheDigest : Prop :=
  ∀ (v : Word) (s : State) (turns : List Turn), s.msg.wf = true → s.phase = .idle → s.len.toNat ≤ maxLen →
    (∀ x ∈ turns, harmless s.len.toNat x = true) → turns.count .engine < runLength s.len.toNat →
    ∃ s0, exec (.start v) s = .next s0 ∧
      (∃ u, Sys2Proof.core.run (turns.length + (runLength s.len.toNat - turns.count .engine))
          { s0 with sched := turns } = .next u ∧
        u.phase = .idle ∧ u.done = true ∧ u.err = false ∧
        u.digest = digestOf s.msg.read s.len.toNat) ∧
      microTrace (turns.length + (runLength s.len.toNat - turns.count .engine)) { s0 with sched := turns } =
        runOps (nblk s.len.toNat) ∧
      ∀ (n : Nat) (x : State), Sys2Proof.core.run n { s0 with sched := turns } = .next x →
        n < turns.length + (runLength s.len.toNat - turns.count .engine) →
        (x.phase = .winit → x.w = scheduleOf (messageBlock s.msg.read s.len.toNat x.bi.toNat)) ∧
        (x.phase = .ldblk ∨ x.phase = .dser → x.h = hashBlocks s.msg.read s.len.toNat x.bi.toNat)

/-- Derived from R152, R153 and R190, for an engine stepping alone: a run executes exactly `148 * NBLK(LEN) + 1`
micro-operations, the ones R104 names: the engine is busy before each of them and idle with DONE = 1 after the last, so
the run ends. That an engine with no turn left in the schedule moves is the model's choice (log 3); the interleaved runs
are those of AcceptedStartComputesTheDigest. -/
def Obligations.RunLengthAndTermination : Prop :=
  ∀ s : State, RunStarts s → s.sched = [] →
    (∀ n, n < 148 * nblk s.len.toNat + 1 → ∃ x, Sys2Proof.core.run n s = .next x ∧ busy x = true) ∧
    (∃ u, Sys2Proof.core.run (148 * nblk s.len.toNat + 1) s = .next u ∧ u.phase = .idle ∧ u.done = true) ∧
    microTrace (148 * nblk s.len.toNat + 1) s =
      (List.replicate (nblk s.len.toNat) blockOps).flatten ++ [.dser] ∧
    blockOps.length = 148 ∧
    (s.len.toNat ≤ 55 → 148 * nblk s.len.toNat + 1 = 149) ∧
    (56 ≤ s.len.toNat → s.len.toNat ≤ 119 → 148 * nblk s.len.toNat + 1 = 297)

/-- Derived from R40 and R190: the digest a run leaves depends on LEN and the message bytes below LEN alone: two states at the start of
a run that agree on those leave the same digest, whatever else they hold and whatever turns are interleaved, as
long as those keep R60 and bring no reset. Each schedule has fewer turns of the engine than the run has
micro-operations. That both runs end, which R40 does not say, is the model's choice: when the schedule is used up the
engine goes on alone (R190; log 3). -/
def Obligations.RunsAreIndependent : Prop :=
  ∀ s q : State, RunStarts s → RunStarts q → s.msg.wf = true → q.msg.wf = true → s.len = q.len →
    (∀ j, j < s.len.toNat → s.msg.read j = q.msg.read j) →
    (∀ x ∈ s.sched, harmless s.len.toNat x = true) → (∀ x ∈ q.sched, harmless q.len.toNat x = true) →
    s.sched.count .engine < runLength s.len.toNat → q.sched.count .engine < runLength q.len.toNat →
    ∃ u x,
      Sys2Proof.core.run (s.sched.length + (runLength s.len.toNat - s.sched.count .engine)) s = .next u ∧
      Sys2Proof.core.run (q.sched.length + (runLength q.len.toNat - q.sched.count .engine)) q = .next x ∧
      u.done = true ∧ x.done = true ∧ u.digest = x.digest

/-- Derived from R171, R172 and 93_implementation_defined.md U3: a step of one instance leaves every other instance as
it was, and what it does depends on the instance's own state alone; and no two instances draw free values from one
stream, after reset or after any step (the product is the model's form, log 21, and the streams are its own, log 24). -/
def Obligations.EngineInstancesAreIndependent : Prop :=
  (∀ (k n : Nat) (y z : System), System.stepAt k y = .next z → n ≠ k → z.engines[n]? = y.engines[n]?) ∧
  (∀ (k : Nat) (y z : System) (s u : State), y.engines[k]? = some s → step s = .next u →
    System.stepAt k y = .next z → z.engines[k]? = some u) ∧
  (∀ (k : Nat) (y : System) (s u : State), y.engines[k]? = some s → step s = .next u →
    ∃ z, System.stepAt k y = .next z) ∧
  (∀ n : Nat, (System.reset n).StreamsApart) ∧
  (∀ (k : Nat) (y z : System), y.StreamsApart → System.stepAt k y = .next z → z.StreamsApart)

/-- Derived from R163: the level outputs busy, done and err equal bits 0, 1 and 2 of STATUS at all times. They are the three
flags. -/
def Obligations.LevelOutputsEqualTheStatusBits : Prop :=
  ∀ s : State,
    busyOut s = (statusWord s).getLsbD 0 ∧ doneOut s = (statusWord s).getLsbD 1 ∧
    errOut s = (statusWord s).getLsbD 2 ∧
    busyOut s = busy s ∧ doneOut s = s.done ∧ errOut s = s.err
end

