-- ==== Sys2Proof/Laws/State.lean ====
section
/-! SUPPORT. One lemma for each field of State and each named update of it, so that no proof unfolds a record
update. -/

namespace Sys2Proof.Machine

/-! ## returnToHost -/

@[simp] theorem returnToHost_h (v : Word) (s : State) : (returnToHost v s).h = s.h := rfl
@[simp] theorem returnToHost_a (v : Word) (s : State) : (returnToHost v s).a = s.a := rfl
@[simp] theorem returnToHost_b (v : Word) (s : State) : (returnToHost v s).b = s.b := rfl
@[simp] theorem returnToHost_c (v : Word) (s : State) : (returnToHost v s).c = s.c := rfl
@[simp] theorem returnToHost_d (v : Word) (s : State) : (returnToHost v s).d = s.d := rfl
@[simp] theorem returnToHost_e (v : Word) (s : State) : (returnToHost v s).e = s.e := rfl
@[simp] theorem returnToHost_w (v : Word) (s : State) : (returnToHost v s).w = s.w := rfl
@[simp] theorem returnToHost_blk (v : Word) (s : State) : (returnToHost v s).blk = s.blk := rfl
@[simp] theorem returnToHost_digest (v : Word) (s : State) : (returnToHost v s).digest = s.digest := rfl
@[simp] theorem returnToHost_len (v : Word) (s : State) : (returnToHost v s).len = s.len := rfl
@[simp] theorem returnToHost_phase (v : Word) (s : State) : (returnToHost v s).phase = s.phase := rfl
@[simp] theorem returnToHost_t (v : Word) (s : State) : (returnToHost v s).t = s.t := rfl
@[simp] theorem returnToHost_bi (v : Word) (s : State) : (returnToHost v s).bi = s.bi := rfl
@[simp] theorem returnToHost_done (v : Word) (s : State) : (returnToHost v s).done = s.done := rfl
@[simp] theorem returnToHost_err (v : Word) (s : State) : (returnToHost v s).err = s.err := rfl
@[simp] theorem returnToHost_msg (v : Word) (s : State) : (returnToHost v s).msg = s.msg := rfl
@[simp] theorem returnToHost_sched (v : Word) (s : State) : (returnToHost v s).sched = s.sched := rfl
@[simp] theorem returnToHost_rdValue (v : Word) (s : State) : (returnToHost v s).rdValue = some v := rfl
@[simp] theorem returnToHost_draws (v : Word) (s : State) : (returnToHost v s).draws = s.draws := rfl
@[simp] theorem returnToHost_msgChanged (v : Word) (s : State) : (returnToHost v s).msgChanged = s.msgChanged := rfl
@[simp] theorem returnToHost_stream (v : Word) (s : State) : (returnToHost v s).stream = s.stream := rfl

/-! ## returnFree -/

@[simp] theorem returnFree_h (s : State) : (returnFree s).h = s.h := rfl
@[simp] theorem returnFree_a (s : State) : (returnFree s).a = s.a := rfl
@[simp] theorem returnFree_b (s : State) : (returnFree s).b = s.b := rfl
@[simp] theorem returnFree_c (s : State) : (returnFree s).c = s.c := rfl
@[simp] theorem returnFree_d (s : State) : (returnFree s).d = s.d := rfl
@[simp] theorem returnFree_e (s : State) : (returnFree s).e = s.e := rfl
@[simp] theorem returnFree_w (s : State) : (returnFree s).w = s.w := rfl
@[simp] theorem returnFree_blk (s : State) : (returnFree s).blk = s.blk := rfl
@[simp] theorem returnFree_digest (s : State) : (returnFree s).digest = s.digest := rfl
@[simp] theorem returnFree_len (s : State) : (returnFree s).len = s.len := rfl
@[simp] theorem returnFree_phase (s : State) : (returnFree s).phase = s.phase := rfl
@[simp] theorem returnFree_t (s : State) : (returnFree s).t = s.t := rfl
@[simp] theorem returnFree_bi (s : State) : (returnFree s).bi = s.bi := rfl
@[simp] theorem returnFree_done (s : State) : (returnFree s).done = s.done := rfl
@[simp] theorem returnFree_err (s : State) : (returnFree s).err = s.err := rfl
@[simp] theorem returnFree_msg (s : State) : (returnFree s).msg = s.msg := rfl
@[simp] theorem returnFree_sched (s : State) : (returnFree s).sched = s.sched := rfl
@[simp] theorem returnFree_rdValue (s : State) : (returnFree s).rdValue = some (Config.freeWord s.stream s.draws) := rfl
@[simp] theorem returnFree_draws (s : State) : (returnFree s).draws = s.draws + 1 := rfl
@[simp] theorem returnFree_msgChanged (s : State) : (returnFree s).msgChanged = s.msgChanged := rfl
@[simp] theorem returnFree_stream (s : State) : (returnFree s).stream = s.stream := rfl

/-! ## raiseLengthOverflow -/

@[simp] theorem raiseLengthOverflow_h (s : State) : (raiseLengthOverflow s).h = s.h := rfl
@[simp] theorem raiseLengthOverflow_a (s : State) : (raiseLengthOverflow s).a = s.a := rfl
@[simp] theorem raiseLengthOverflow_b (s : State) : (raiseLengthOverflow s).b = s.b := rfl
@[simp] theorem raiseLengthOverflow_c (s : State) : (raiseLengthOverflow s).c = s.c := rfl
@[simp] theorem raiseLengthOverflow_d (s : State) : (raiseLengthOverflow s).d = s.d := rfl
@[simp] theorem raiseLengthOverflow_e (s : State) : (raiseLengthOverflow s).e = s.e := rfl
@[simp] theorem raiseLengthOverflow_w (s : State) : (raiseLengthOverflow s).w = s.w := rfl
@[simp] theorem raiseLengthOverflow_blk (s : State) : (raiseLengthOverflow s).blk = s.blk := rfl
@[simp] theorem raiseLengthOverflow_digest (s : State) : (raiseLengthOverflow s).digest = s.digest := rfl
@[simp] theorem raiseLengthOverflow_len (s : State) : (raiseLengthOverflow s).len = s.len := rfl
@[simp] theorem raiseLengthOverflow_phase (s : State) : (raiseLengthOverflow s).phase = s.phase := rfl
@[simp] theorem raiseLengthOverflow_t (s : State) : (raiseLengthOverflow s).t = s.t := rfl
@[simp] theorem raiseLengthOverflow_bi (s : State) : (raiseLengthOverflow s).bi = s.bi := rfl
@[simp] theorem raiseLengthOverflow_done (s : State) : (raiseLengthOverflow s).done = false := rfl
@[simp] theorem raiseLengthOverflow_err (s : State) : (raiseLengthOverflow s).err = true := rfl
@[simp] theorem raiseLengthOverflow_msg (s : State) : (raiseLengthOverflow s).msg = s.msg := rfl
@[simp] theorem raiseLengthOverflow_sched (s : State) : (raiseLengthOverflow s).sched = s.sched := rfl
@[simp] theorem raiseLengthOverflow_rdValue (s : State) : (raiseLengthOverflow s).rdValue = s.rdValue := rfl
@[simp] theorem raiseLengthOverflow_draws (s : State) : (raiseLengthOverflow s).draws = s.draws := rfl
@[simp] theorem raiseLengthOverflow_msgChanged (s : State) : (raiseLengthOverflow s).msgChanged = s.msgChanged := rfl
@[simp] theorem raiseLengthOverflow_stream (s : State) : (raiseLengthOverflow s).stream = s.stream := rfl

/-! ## acceptStart -/

@[simp] theorem acceptStart_h (s : State) : (acceptStart s).h = iv := rfl
@[simp] theorem acceptStart_a (s : State) : (acceptStart s).a = s.a := rfl
@[simp] theorem acceptStart_b (s : State) : (acceptStart s).b = s.b := rfl
@[simp] theorem acceptStart_c (s : State) : (acceptStart s).c = s.c := rfl
@[simp] theorem acceptStart_d (s : State) : (acceptStart s).d = s.d := rfl
@[simp] theorem acceptStart_e (s : State) : (acceptStart s).e = s.e := rfl
@[simp] theorem acceptStart_w (s : State) : (acceptStart s).w = s.w := rfl
@[simp] theorem acceptStart_blk (s : State) : (acceptStart s).blk = s.blk := rfl
@[simp] theorem acceptStart_digest (s : State) : (acceptStart s).digest = s.digest := rfl
@[simp] theorem acceptStart_len (s : State) : (acceptStart s).len = s.len := rfl
@[simp] theorem acceptStart_phase (s : State) : (acceptStart s).phase = .ldblk := rfl
@[simp] theorem acceptStart_t (s : State) : (acceptStart s).t = 0 := rfl
@[simp] theorem acceptStart_bi (s : State) : (acceptStart s).bi = 0 := rfl
@[simp] theorem acceptStart_done (s : State) : (acceptStart s).done = false := rfl
@[simp] theorem acceptStart_err (s : State) : (acceptStart s).err = false := rfl
@[simp] theorem acceptStart_msg (s : State) : (acceptStart s).msg = s.msg := rfl
@[simp] theorem acceptStart_sched (s : State) : (acceptStart s).sched = s.sched := rfl
@[simp] theorem acceptStart_rdValue (s : State) : (acceptStart s).rdValue = s.rdValue := rfl
@[simp] theorem acceptStart_draws (s : State) : (acceptStart s).draws = s.draws := rfl
@[simp] theorem acceptStart_msgChanged (s : State) : (acceptStart s).msgChanged = false := rfl
@[simp] theorem acceptStart_stream (s : State) : (acceptStart s).stream = s.stream := rfl

/-! ## resetEvent -/

@[simp] theorem resetEvent_len (s : State) : (resetEvent s).len = 0 := rfl
@[simp] theorem resetEvent_phase (s : State) : (resetEvent s).phase = .idle := rfl
@[simp] theorem resetEvent_t (s : State) : (resetEvent s).t = 0 := rfl
@[simp] theorem resetEvent_bi (s : State) : (resetEvent s).bi = 0 := rfl
@[simp] theorem resetEvent_done (s : State) : (resetEvent s).done = false := rfl
@[simp] theorem resetEvent_err (s : State) : (resetEvent s).err = false := rfl
@[simp] theorem resetEvent_msg (s : State) : (resetEvent s).msg = s.msg := rfl
@[simp] theorem resetEvent_sched (s : State) : (resetEvent s).sched = s.sched := rfl
@[simp] theorem resetEvent_rdValue (s : State) : (resetEvent s).rdValue = s.rdValue := rfl
@[simp] theorem resetEvent_draws (s : State) : (resetEvent s).draws = s.draws + 174 := rfl
@[simp] theorem resetEvent_msgChanged (s : State) : (resetEvent s).msgChanged = false := rfl
@[simp] theorem resetEvent_stream (s : State) : (resetEvent s).stream = s.stream := rfl

/-! ## hostWriteMsg -/

@[simp] theorem hostWriteMsg_h (j : BitVec 61) (x : Byte) (s : State) : (hostWriteMsg j x s).h = s.h := rfl
@[simp] theorem hostWriteMsg_a (j : BitVec 61) (x : Byte) (s : State) : (hostWriteMsg j x s).a = s.a := rfl
@[simp] theorem hostWriteMsg_b (j : BitVec 61) (x : Byte) (s : State) : (hostWriteMsg j x s).b = s.b := rfl
@[simp] theorem hostWriteMsg_c (j : BitVec 61) (x : Byte) (s : State) : (hostWriteMsg j x s).c = s.c := rfl
@[simp] theorem hostWriteMsg_d (j : BitVec 61) (x : Byte) (s : State) : (hostWriteMsg j x s).d = s.d := rfl
@[simp] theorem hostWriteMsg_e (j : BitVec 61) (x : Byte) (s : State) : (hostWriteMsg j x s).e = s.e := rfl
@[simp] theorem hostWriteMsg_w (j : BitVec 61) (x : Byte) (s : State) : (hostWriteMsg j x s).w = s.w := rfl
@[simp] theorem hostWriteMsg_blk (j : BitVec 61) (x : Byte) (s : State) : (hostWriteMsg j x s).blk = s.blk := rfl
@[simp] theorem hostWriteMsg_digest (j : BitVec 61) (x : Byte) (s : State) : (hostWriteMsg j x s).digest = s.digest := rfl
@[simp] theorem hostWriteMsg_len (j : BitVec 61) (x : Byte) (s : State) : (hostWriteMsg j x s).len = s.len := rfl
@[simp] theorem hostWriteMsg_phase (j : BitVec 61) (x : Byte) (s : State) : (hostWriteMsg j x s).phase = s.phase := rfl
@[simp] theorem hostWriteMsg_t (j : BitVec 61) (x : Byte) (s : State) : (hostWriteMsg j x s).t = s.t := rfl
@[simp] theorem hostWriteMsg_bi (j : BitVec 61) (x : Byte) (s : State) : (hostWriteMsg j x s).bi = s.bi := rfl
@[simp] theorem hostWriteMsg_done (j : BitVec 61) (x : Byte) (s : State) : (hostWriteMsg j x s).done = s.done := rfl
@[simp] theorem hostWriteMsg_err (j : BitVec 61) (x : Byte) (s : State) : (hostWriteMsg j x s).err = s.err := rfl
@[simp] theorem hostWriteMsg_msg (j : BitVec 61) (x : Byte) (s : State) : (hostWriteMsg j x s).msg = s.msg.write j.toNat x := rfl
@[simp] theorem hostWriteMsg_sched (j : BitVec 61) (x : Byte) (s : State) : (hostWriteMsg j x s).sched = s.sched := rfl
@[simp] theorem hostWriteMsg_rdValue (j : BitVec 61) (x : Byte) (s : State) : (hostWriteMsg j x s).rdValue = s.rdValue := rfl
@[simp] theorem hostWriteMsg_draws (j : BitVec 61) (x : Byte) (s : State) : (hostWriteMsg j x s).draws = s.draws := rfl
@[simp] theorem hostWriteMsg_msgChanged (j : BitVec 61) (x : Byte) (s : State) : (hostWriteMsg j x s).msgChanged = (s.msgChanged || (busy s && decide (j.toNat < s.len.toNat))) := rfl
@[simp] theorem hostWriteMsg_stream (j : BitVec 61) (x : Byte) (s : State) : (hostWriteMsg j x s).stream = s.stream := rfl

/-! ## popTurn -/

@[simp] theorem popTurn_h (s : State) : (popTurn s).h = s.h := rfl
@[simp] theorem popTurn_a (s : State) : (popTurn s).a = s.a := rfl
@[simp] theorem popTurn_b (s : State) : (popTurn s).b = s.b := rfl
@[simp] theorem popTurn_c (s : State) : (popTurn s).c = s.c := rfl
@[simp] theorem popTurn_d (s : State) : (popTurn s).d = s.d := rfl
@[simp] theorem popTurn_e (s : State) : (popTurn s).e = s.e := rfl
@[simp] theorem popTurn_w (s : State) : (popTurn s).w = s.w := rfl
@[simp] theorem popTurn_blk (s : State) : (popTurn s).blk = s.blk := rfl
@[simp] theorem popTurn_digest (s : State) : (popTurn s).digest = s.digest := rfl
@[simp] theorem popTurn_len (s : State) : (popTurn s).len = s.len := rfl
@[simp] theorem popTurn_phase (s : State) : (popTurn s).phase = s.phase := rfl
@[simp] theorem popTurn_t (s : State) : (popTurn s).t = s.t := rfl
@[simp] theorem popTurn_bi (s : State) : (popTurn s).bi = s.bi := rfl
@[simp] theorem popTurn_done (s : State) : (popTurn s).done = s.done := rfl
@[simp] theorem popTurn_err (s : State) : (popTurn s).err = s.err := rfl
@[simp] theorem popTurn_msg (s : State) : (popTurn s).msg = s.msg := rfl
@[simp] theorem popTurn_sched (s : State) : (popTurn s).sched = s.sched.tail := rfl
@[simp] theorem popTurn_rdValue (s : State) : (popTurn s).rdValue = s.rdValue := rfl
@[simp] theorem popTurn_draws (s : State) : (popTurn s).draws = s.draws := rfl
@[simp] theorem popTurn_msgChanged (s : State) : (popTurn s).msgChanged = s.msgChanged := rfl
@[simp] theorem popTurn_stream (s : State) : (popTurn s).stream = s.stream := rfl

/-! ## loadBlock -/

@[simp] theorem loadBlock_h (s : State) : (loadBlock s).h = s.h := by
  simp only [loadBlock]
@[simp] theorem loadBlock_a (s : State) : (loadBlock s).a = s.a := by
  simp only [loadBlock]
@[simp] theorem loadBlock_b (s : State) : (loadBlock s).b = s.b := by
  simp only [loadBlock]
@[simp] theorem loadBlock_c (s : State) : (loadBlock s).c = s.c := by
  simp only [loadBlock]
@[simp] theorem loadBlock_d (s : State) : (loadBlock s).d = s.d := by
  simp only [loadBlock]
@[simp] theorem loadBlock_e (s : State) : (loadBlock s).e = s.e := by
  simp only [loadBlock]
@[simp] theorem loadBlock_w (s : State) : (loadBlock s).w = s.w := by
  simp only [loadBlock]
@[simp] theorem loadBlock_blk (s : State) : (loadBlock s).blk = Vector.ofFn fun k => blockByte s k.val := by
  simp only [loadBlock]
@[simp] theorem loadBlock_digest (s : State) : (loadBlock s).digest = s.digest := by
  simp only [loadBlock]
@[simp] theorem loadBlock_len (s : State) : (loadBlock s).len = s.len := by
  simp only [loadBlock]
@[simp] theorem loadBlock_phase (s : State) : (loadBlock s).phase = .wld := by
  simp only [loadBlock]
@[simp] theorem loadBlock_t (s : State) : (loadBlock s).t = s.t := by
  simp only [loadBlock]
@[simp] theorem loadBlock_bi (s : State) : (loadBlock s).bi = s.bi := by
  simp only [loadBlock]
@[simp] theorem loadBlock_done (s : State) : (loadBlock s).done = s.done := by
  simp only [loadBlock]
@[simp] theorem loadBlock_err (s : State) : (loadBlock s).err = s.err := by
  simp only [loadBlock]
@[simp] theorem loadBlock_msg (s : State) : (loadBlock s).msg = s.msg := by
  simp only [loadBlock]
@[simp] theorem loadBlock_sched (s : State) : (loadBlock s).sched = s.sched := by
  simp only [loadBlock]
@[simp] theorem loadBlock_rdValue (s : State) : (loadBlock s).rdValue = s.rdValue := by
  simp only [loadBlock]
@[simp] theorem loadBlock_draws (s : State) : (loadBlock s).draws = if blockStated s then s.draws else s.draws + 64 := by
  simp only [loadBlock]
@[simp] theorem loadBlock_msgChanged (s : State) : (loadBlock s).msgChanged = s.msgChanged := by
  simp only [loadBlock]
@[simp] theorem loadBlock_stream (s : State) : (loadBlock s).stream = s.stream := by
  simp only [loadBlock]

/-! ## writeExpanded -/

@[simp] theorem writeExpanded_h (s : State) : (writeExpanded s).h = s.h := by
  simp only [writeExpanded]
@[simp] theorem writeExpanded_a (s : State) : (writeExpanded s).a = s.a := by
  simp only [writeExpanded]
@[simp] theorem writeExpanded_b (s : State) : (writeExpanded s).b = s.b := by
  simp only [writeExpanded]
@[simp] theorem writeExpanded_c (s : State) : (writeExpanded s).c = s.c := by
  simp only [writeExpanded]
@[simp] theorem writeExpanded_d (s : State) : (writeExpanded s).d = s.d := by
  simp only [writeExpanded]
@[simp] theorem writeExpanded_e (s : State) : (writeExpanded s).e = s.e := by
  simp only [writeExpanded]
@[simp] theorem writeExpanded_w (s : State) : (writeExpanded s).w = s.w.set s.t.val (expandedWord s) := by
  simp only [writeExpanded]
@[simp] theorem writeExpanded_blk (s : State) : (writeExpanded s).blk = s.blk := by
  simp only [writeExpanded]
@[simp] theorem writeExpanded_digest (s : State) : (writeExpanded s).digest = s.digest := by
  simp only [writeExpanded]
@[simp] theorem writeExpanded_len (s : State) : (writeExpanded s).len = s.len := by
  simp only [writeExpanded]
@[simp] theorem writeExpanded_phase (s : State) : (writeExpanded s).phase = s.phase := by
  simp only [writeExpanded]
@[simp] theorem writeExpanded_t (s : State) : (writeExpanded s).t = s.t := by
  simp only [writeExpanded]
@[simp] theorem writeExpanded_bi (s : State) : (writeExpanded s).bi = s.bi := by
  simp only [writeExpanded]
@[simp] theorem writeExpanded_done (s : State) : (writeExpanded s).done = s.done := by
  simp only [writeExpanded]
@[simp] theorem writeExpanded_err (s : State) : (writeExpanded s).err = s.err := by
  simp only [writeExpanded]
@[simp] theorem writeExpanded_msg (s : State) : (writeExpanded s).msg = s.msg := by
  simp only [writeExpanded]
@[simp] theorem writeExpanded_sched (s : State) : (writeExpanded s).sched = s.sched := by
  simp only [writeExpanded]
@[simp] theorem writeExpanded_rdValue (s : State) : (writeExpanded s).rdValue = s.rdValue := by
  simp only [writeExpanded]
@[simp] theorem writeExpanded_draws (s : State) : (writeExpanded s).draws = if 16 ≤ s.t.val then s.draws else s.draws + 4 := by
  simp only [writeExpanded]
@[simp] theorem writeExpanded_msgChanged (s : State) : (writeExpanded s).msgChanged = s.msgChanged := by
  simp only [writeExpanded]
@[simp] theorem writeExpanded_stream (s : State) : (writeExpanded s).stream = s.stream := by
  simp only [writeExpanded]

/-! ## shiftRegisters -/

@[simp] theorem shiftRegisters_h (f : Word → Word → Word → Word) (k : Word) (s : State) : (shiftRegisters f k s).h = s.h := rfl
@[simp] theorem shiftRegisters_a (f : Word → Word → Word → Word) (k : Word) (s : State) : (shiftRegisters f k s).a = roundTemp f k s := rfl
@[simp] theorem shiftRegisters_b (f : Word → Word → Word → Word) (k : Word) (s : State) : (shiftRegisters f k s).b = s.a := rfl
@[simp] theorem shiftRegisters_c (f : Word → Word → Word → Word) (k : Word) (s : State) : (shiftRegisters f k s).c = rotl32 s.b 30 := rfl
@[simp] theorem shiftRegisters_d (f : Word → Word → Word → Word) (k : Word) (s : State) : (shiftRegisters f k s).d = s.c := rfl
@[simp] theorem shiftRegisters_e (f : Word → Word → Word → Word) (k : Word) (s : State) : (shiftRegisters f k s).e = s.d := rfl
@[simp] theorem shiftRegisters_w (f : Word → Word → Word → Word) (k : Word) (s : State) : (shiftRegisters f k s).w = s.w := rfl
@[simp] theorem shiftRegisters_blk (f : Word → Word → Word → Word) (k : Word) (s : State) : (shiftRegisters f k s).blk = s.blk := rfl
@[simp] theorem shiftRegisters_digest (f : Word → Word → Word → Word) (k : Word) (s : State) : (shiftRegisters f k s).digest = s.digest := rfl
@[simp] theorem shiftRegisters_len (f : Word → Word → Word → Word) (k : Word) (s : State) : (shiftRegisters f k s).len = s.len := rfl
@[simp] theorem shiftRegisters_phase (f : Word → Word → Word → Word) (k : Word) (s : State) : (shiftRegisters f k s).phase = s.phase := rfl
@[simp] theorem shiftRegisters_t (f : Word → Word → Word → Word) (k : Word) (s : State) : (shiftRegisters f k s).t = s.t := rfl
@[simp] theorem shiftRegisters_bi (f : Word → Word → Word → Word) (k : Word) (s : State) : (shiftRegisters f k s).bi = s.bi := rfl
@[simp] theorem shiftRegisters_done (f : Word → Word → Word → Word) (k : Word) (s : State) : (shiftRegisters f k s).done = s.done := rfl
@[simp] theorem shiftRegisters_err (f : Word → Word → Word → Word) (k : Word) (s : State) : (shiftRegisters f k s).err = s.err := rfl
@[simp] theorem shiftRegisters_msg (f : Word → Word → Word → Word) (k : Word) (s : State) : (shiftRegisters f k s).msg = s.msg := rfl
@[simp] theorem shiftRegisters_sched (f : Word → Word → Word → Word) (k : Word) (s : State) : (shiftRegisters f k s).sched = s.sched := rfl
@[simp] theorem shiftRegisters_rdValue (f : Word → Word → Word → Word) (k : Word) (s : State) : (shiftRegisters f k s).rdValue = s.rdValue := rfl
@[simp] theorem shiftRegisters_draws (f : Word → Word → Word → Word) (k : Word) (s : State) : (shiftRegisters f k s).draws = s.draws := rfl
@[simp] theorem shiftRegisters_msgChanged (f : Word → Word → Word → Word) (k : Word) (s : State) : (shiftRegisters f k s).msgChanged = s.msgChanged := rfl
@[simp] theorem shiftRegisters_stream (f : Word → Word → Word → Word) (k : Word) (s : State) : (shiftRegisters f k s).stream = s.stream := rfl

/-! ## loadSchedule -/

@[simp] theorem loadSchedule_h (s : State) : (loadSchedule s).h = s.h := by
  simp only [loadSchedule]
@[simp] theorem loadSchedule_a (s : State) : (loadSchedule s).a = s.a := by
  simp only [loadSchedule]
@[simp] theorem loadSchedule_b (s : State) : (loadSchedule s).b = s.b := by
  simp only [loadSchedule]
@[simp] theorem loadSchedule_c (s : State) : (loadSchedule s).c = s.c := by
  simp only [loadSchedule]
@[simp] theorem loadSchedule_d (s : State) : (loadSchedule s).d = s.d := by
  simp only [loadSchedule]
@[simp] theorem loadSchedule_e (s : State) : (loadSchedule s).e = s.e := by
  simp only [loadSchedule]
@[simp] theorem loadSchedule_w (s : State) : (loadSchedule s).w = loadWords s.blk s.w := by
  simp only [loadSchedule]
@[simp] theorem loadSchedule_blk (s : State) : (loadSchedule s).blk = s.blk := by
  simp only [loadSchedule]
@[simp] theorem loadSchedule_digest (s : State) : (loadSchedule s).digest = s.digest := by
  simp only [loadSchedule]
@[simp] theorem loadSchedule_len (s : State) : (loadSchedule s).len = s.len := by
  simp only [loadSchedule]
@[simp] theorem loadSchedule_phase (s : State) : (loadSchedule s).phase = .wxp := by
  simp only [loadSchedule]
@[simp] theorem loadSchedule_t (s : State) : (loadSchedule s).t = 16 := by
  simp only [loadSchedule]
@[simp] theorem loadSchedule_bi (s : State) : (loadSchedule s).bi = s.bi := by
  simp only [loadSchedule]
@[simp] theorem loadSchedule_done (s : State) : (loadSchedule s).done = s.done := by
  simp only [loadSchedule]
@[simp] theorem loadSchedule_err (s : State) : (loadSchedule s).err = s.err := by
  simp only [loadSchedule]
@[simp] theorem loadSchedule_msg (s : State) : (loadSchedule s).msg = s.msg := by
  simp only [loadSchedule]
@[simp] theorem loadSchedule_sched (s : State) : (loadSchedule s).sched = s.sched := by
  simp only [loadSchedule]
@[simp] theorem loadSchedule_rdValue (s : State) : (loadSchedule s).rdValue = s.rdValue := by
  simp only [loadSchedule]
@[simp] theorem loadSchedule_draws (s : State) : (loadSchedule s).draws = s.draws := by
  simp only [loadSchedule]
@[simp] theorem loadSchedule_msgChanged (s : State) : (loadSchedule s).msgChanged = s.msgChanged := by
  simp only [loadSchedule]
@[simp] theorem loadSchedule_stream (s : State) : (loadSchedule s).stream = s.stream := by
  simp only [loadSchedule]

/-! ## initWorking -/

@[simp] theorem initWorking_h (s : State) : (initWorking s).h = s.h := by
  simp only [initWorking]
@[simp] theorem initWorking_a (s : State) : (initWorking s).a = s.h[0] := by
  simp only [initWorking]
@[simp] theorem initWorking_b (s : State) : (initWorking s).b = s.h[1] := by
  simp only [initWorking]
@[simp] theorem initWorking_c (s : State) : (initWorking s).c = s.h[2] := by
  simp only [initWorking]
@[simp] theorem initWorking_d (s : State) : (initWorking s).d = s.h[3] := by
  simp only [initWorking]
@[simp] theorem initWorking_e (s : State) : (initWorking s).e = s.h[4] := by
  simp only [initWorking]
@[simp] theorem initWorking_w (s : State) : (initWorking s).w = s.w := by
  simp only [initWorking]
@[simp] theorem initWorking_blk (s : State) : (initWorking s).blk = s.blk := by
  simp only [initWorking]
@[simp] theorem initWorking_digest (s : State) : (initWorking s).digest = s.digest := by
  simp only [initWorking]
@[simp] theorem initWorking_len (s : State) : (initWorking s).len = s.len := by
  simp only [initWorking]
@[simp] theorem initWorking_phase (s : State) : (initWorking s).phase = .rnd := by
  simp only [initWorking]
@[simp] theorem initWorking_t (s : State) : (initWorking s).t = 0 := by
  simp only [initWorking]
@[simp] theorem initWorking_bi (s : State) : (initWorking s).bi = s.bi := by
  simp only [initWorking]
@[simp] theorem initWorking_done (s : State) : (initWorking s).done = s.done := by
  simp only [initWorking]
@[simp] theorem initWorking_err (s : State) : (initWorking s).err = s.err := by
  simp only [initWorking]
@[simp] theorem initWorking_msg (s : State) : (initWorking s).msg = s.msg := by
  simp only [initWorking]
@[simp] theorem initWorking_sched (s : State) : (initWorking s).sched = s.sched := by
  simp only [initWorking]
@[simp] theorem initWorking_rdValue (s : State) : (initWorking s).rdValue = s.rdValue := by
  simp only [initWorking]
@[simp] theorem initWorking_draws (s : State) : (initWorking s).draws = s.draws := by
  simp only [initWorking]
@[simp] theorem initWorking_msgChanged (s : State) : (initWorking s).msgChanged = s.msgChanged := by
  simp only [initWorking]
@[simp] theorem initWorking_stream (s : State) : (initWorking s).stream = s.stream := by
  simp only [initWorking]

/-! ## finishBlock -/

@[simp] theorem finishBlock_h (s : State) : (finishBlock s).h = accumulate s := by
  simp only [finishBlock]
@[simp] theorem finishBlock_a (s : State) : (finishBlock s).a = s.a := by
  simp only [finishBlock]
@[simp] theorem finishBlock_b (s : State) : (finishBlock s).b = s.b := by
  simp only [finishBlock]
@[simp] theorem finishBlock_c (s : State) : (finishBlock s).c = s.c := by
  simp only [finishBlock]
@[simp] theorem finishBlock_d (s : State) : (finishBlock s).d = s.d := by
  simp only [finishBlock]
@[simp] theorem finishBlock_e (s : State) : (finishBlock s).e = s.e := by
  simp only [finishBlock]
@[simp] theorem finishBlock_w (s : State) : (finishBlock s).w = s.w := by
  simp only [finishBlock]
@[simp] theorem finishBlock_blk (s : State) : (finishBlock s).blk = s.blk := by
  simp only [finishBlock]
@[simp] theorem finishBlock_digest (s : State) : (finishBlock s).digest = s.digest := by
  simp only [finishBlock]
@[simp] theorem finishBlock_len (s : State) : (finishBlock s).len = s.len := by
  simp only [finishBlock]
@[simp] theorem finishBlock_phase (s : State) :
    (finishBlock s).phase = if s.bi.toNat + 1 = nblk s.len.toNat then .dser else .ldblk := by
  simp only [finishBlock]
@[simp] theorem finishBlock_t (s : State) : (finishBlock s).t = s.t := by
  simp only [finishBlock]
@[simp] theorem finishBlock_bi (s : State) : (finishBlock s).bi = s.bi + 1 := by
  simp only [finishBlock]
@[simp] theorem finishBlock_done (s : State) : (finishBlock s).done = s.done := by
  simp only [finishBlock]
@[simp] theorem finishBlock_err (s : State) : (finishBlock s).err = s.err := by
  simp only [finishBlock]
@[simp] theorem finishBlock_msg (s : State) : (finishBlock s).msg = s.msg := by
  simp only [finishBlock]
@[simp] theorem finishBlock_sched (s : State) : (finishBlock s).sched = s.sched := by
  simp only [finishBlock]
@[simp] theorem finishBlock_rdValue (s : State) : (finishBlock s).rdValue = s.rdValue := by
  simp only [finishBlock]
@[simp] theorem finishBlock_draws (s : State) : (finishBlock s).draws = s.draws := by
  simp only [finishBlock]
@[simp] theorem finishBlock_msgChanged (s : State) : (finishBlock s).msgChanged = s.msgChanged := by
  simp only [finishBlock]
@[simp] theorem finishBlock_stream (s : State) : (finishBlock s).stream = s.stream := by
  simp only [finishBlock]

/-! ## finishRun -/

@[simp] theorem finishRun_h (s : State) : (finishRun s).h = s.h := by
  simp only [finishRun]
@[simp] theorem finishRun_a (s : State) : (finishRun s).a = s.a := by
  simp only [finishRun]
@[simp] theorem finishRun_b (s : State) : (finishRun s).b = s.b := by
  simp only [finishRun]
@[simp] theorem finishRun_c (s : State) : (finishRun s).c = s.c := by
  simp only [finishRun]
@[simp] theorem finishRun_d (s : State) : (finishRun s).d = s.d := by
  simp only [finishRun]
@[simp] theorem finishRun_e (s : State) : (finishRun s).e = s.e := by
  simp only [finishRun]
@[simp] theorem finishRun_w (s : State) : (finishRun s).w = s.w := by
  simp only [finishRun]
@[simp] theorem finishRun_blk (s : State) : (finishRun s).blk = s.blk := by
  simp only [finishRun]
@[simp] theorem finishRun_digest (s : State) :
    (finishRun s).digest = if s.msgChanged then freeDigest s else serialize s.h := by
  simp only [finishRun]
@[simp] theorem finishRun_len (s : State) : (finishRun s).len = s.len := by
  simp only [finishRun]
@[simp] theorem finishRun_phase (s : State) : (finishRun s).phase = .idle := by
  simp only [finishRun]
@[simp] theorem finishRun_t (s : State) : (finishRun s).t = s.t := by
  simp only [finishRun]
@[simp] theorem finishRun_bi (s : State) : (finishRun s).bi = s.bi := by
  simp only [finishRun]
@[simp] theorem finishRun_done (s : State) : (finishRun s).done = true := by
  simp only [finishRun]
@[simp] theorem finishRun_err (s : State) : (finishRun s).err = s.err := by
  simp only [finishRun]
@[simp] theorem finishRun_msg (s : State) : (finishRun s).msg = s.msg := by
  simp only [finishRun]
@[simp] theorem finishRun_sched (s : State) : (finishRun s).sched = s.sched := by
  simp only [finishRun]
@[simp] theorem finishRun_rdValue (s : State) : (finishRun s).rdValue = s.rdValue := by
  simp only [finishRun]
@[simp] theorem finishRun_draws (s : State) :
    (finishRun s).draws = if s.msgChanged then s.draws + 20 else s.draws := by
  simp only [finishRun]
@[simp] theorem finishRun_msgChanged (s : State) : (finishRun s).msgChanged = s.msgChanged := by
  simp only [finishRun]
@[simp] theorem finishRun_stream (s : State) : (finishRun s).stream = s.stream := by
  simp only [finishRun]

/-! ## advanceIndex changes T and PHASE alone -/

@[simp] theorem advanceIndex_h (p : Phase) (s : State) : (advanceIndex p s).h = s.h := by
  unfold advanceIndex; split <;> rfl
@[simp] theorem advanceIndex_a (p : Phase) (s : State) : (advanceIndex p s).a = s.a := by
  unfold advanceIndex; split <;> rfl
@[simp] theorem advanceIndex_b (p : Phase) (s : State) : (advanceIndex p s).b = s.b := by
  unfold advanceIndex; split <;> rfl
@[simp] theorem advanceIndex_c (p : Phase) (s : State) : (advanceIndex p s).c = s.c := by
  unfold advanceIndex; split <;> rfl
@[simp] theorem advanceIndex_d (p : Phase) (s : State) : (advanceIndex p s).d = s.d := by
  unfold advanceIndex; split <;> rfl
@[simp] theorem advanceIndex_e (p : Phase) (s : State) : (advanceIndex p s).e = s.e := by
  unfold advanceIndex; split <;> rfl
@[simp] theorem advanceIndex_w (p : Phase) (s : State) : (advanceIndex p s).w = s.w := by
  unfold advanceIndex; split <;> rfl
@[simp] theorem advanceIndex_blk (p : Phase) (s : State) : (advanceIndex p s).blk = s.blk := by
  unfold advanceIndex; split <;> rfl
@[simp] theorem advanceIndex_digest (p : Phase) (s : State) : (advanceIndex p s).digest = s.digest := by
  unfold advanceIndex; split <;> rfl
@[simp] theorem advanceIndex_len (p : Phase) (s : State) : (advanceIndex p s).len = s.len := by
  unfold advanceIndex; split <;> rfl
@[simp] theorem advanceIndex_bi (p : Phase) (s : State) : (advanceIndex p s).bi = s.bi := by
  unfold advanceIndex; split <;> rfl
@[simp] theorem advanceIndex_done (p : Phase) (s : State) : (advanceIndex p s).done = s.done := by
  unfold advanceIndex; split <;> rfl
@[simp] theorem advanceIndex_err (p : Phase) (s : State) : (advanceIndex p s).err = s.err := by
  unfold advanceIndex; split <;> rfl
@[simp] theorem advanceIndex_msg (p : Phase) (s : State) : (advanceIndex p s).msg = s.msg := by
  unfold advanceIndex; split <;> rfl
@[simp] theorem advanceIndex_sched (p : Phase) (s : State) : (advanceIndex p s).sched = s.sched := by
  unfold advanceIndex; split <;> rfl
@[simp] theorem advanceIndex_rdValue (p : Phase) (s : State) : (advanceIndex p s).rdValue = s.rdValue := by
  unfold advanceIndex; split <;> rfl
@[simp] theorem advanceIndex_draws (p : Phase) (s : State) : (advanceIndex p s).draws = s.draws := by
  unfold advanceIndex; split <;> rfl
@[simp] theorem advanceIndex_msgChanged (p : Phase) (s : State) : (advanceIndex p s).msgChanged = s.msgChanged := by
  unfold advanceIndex; split <;> rfl
@[simp] theorem advanceIndex_stream (p : Phase) (s : State) : (advanceIndex p s).stream = s.stream := by
  unfold advanceIndex; split <;> rfl

/-- Below 79 the index counts up and PHASE stays (R121, R132). -/
theorem advanceIndex_of_lt (p : Phase) (s : State) (h : s.t.val < 79) :
    advanceIndex p s = { s with t := ⟨s.t.val + 1, by omega⟩ } := by
  simp [advanceIndex, h]

/-- At 79 the index returns to 0 and PHASE moves on (R121, R132). -/
theorem advanceIndex_of_last (p : Phase) (s : State) (h : s.t.val = 79) :
    advanceIndex p s = { s with t := 0, phase := p } := by
  simp [advanceIndex, h]

/-- Where the index and PHASE go, in one equation each. -/
theorem advanceIndex_t_val (p : Phase) (s : State) :
    (advanceIndex p s).t.val = if s.t.val < 79 then s.t.val + 1 else 0 := by
  unfold advanceIndex; split <;> rfl

theorem advanceIndex_phase (p : Phase) (s : State) :
    (advanceIndex p s).phase = if s.t.val < 79 then s.phase else p := by
  unfold advanceIndex; split <;> rfl

/-! ## roundStep -/

@[simp] theorem roundStep_h (f : Word → Word → Word → Word) (k : Word) (s : State) :
    (roundStep f k s).h = s.h := by simp [roundStep]
@[simp] theorem roundStep_w (f : Word → Word → Word → Word) (k : Word) (s : State) :
    (roundStep f k s).w = s.w := by simp [roundStep]
@[simp] theorem roundStep_blk (f : Word → Word → Word → Word) (k : Word) (s : State) :
    (roundStep f k s).blk = s.blk := by simp [roundStep]
@[simp] theorem roundStep_digest (f : Word → Word → Word → Word) (k : Word) (s : State) :
    (roundStep f k s).digest = s.digest := by simp [roundStep]
@[simp] theorem roundStep_len (f : Word → Word → Word → Word) (k : Word) (s : State) :
    (roundStep f k s).len = s.len := by simp [roundStep]
@[simp] theorem roundStep_bi (f : Word → Word → Word → Word) (k : Word) (s : State) :
    (roundStep f k s).bi = s.bi := by simp [roundStep]
@[simp] theorem roundStep_done (f : Word → Word → Word → Word) (k : Word) (s : State) :
    (roundStep f k s).done = s.done := by simp [roundStep]
@[simp] theorem roundStep_err (f : Word → Word → Word → Word) (k : Word) (s : State) :
    (roundStep f k s).err = s.err := by simp [roundStep]
@[simp] theorem roundStep_msg (f : Word → Word → Word → Word) (k : Word) (s : State) :
    (roundStep f k s).msg = s.msg := by simp [roundStep]
@[simp] theorem roundStep_sched (f : Word → Word → Word → Word) (k : Word) (s : State) :
    (roundStep f k s).sched = s.sched := by simp [roundStep]
@[simp] theorem roundStep_rdValue (f : Word → Word → Word → Word) (k : Word) (s : State) :
    (roundStep f k s).rdValue = s.rdValue := by simp [roundStep]
@[simp] theorem roundStep_draws (f : Word → Word → Word → Word) (k : Word) (s : State) :
    (roundStep f k s).draws = s.draws := by simp [roundStep]
@[simp] theorem roundStep_msgChanged (f : Word → Word → Word → Word) (k : Word) (s : State) :
    (roundStep f k s).msgChanged = s.msgChanged := by simp [roundStep]
@[simp] theorem roundStep_stream (f : Word → Word → Word → Word) (k : Word) (s : State) :
    (roundStep f k s).stream = s.stream := by simp [roundStep]
@[simp] theorem roundStep_a (f : Word → Word → Word → Word) (k : Word) (s : State) :
    (roundStep f k s).a = roundTemp f k s := by simp [roundStep]
@[simp] theorem roundStep_b (f : Word → Word → Word → Word) (k : Word) (s : State) :
    (roundStep f k s).b = s.a := by simp [roundStep]
@[simp] theorem roundStep_c (f : Word → Word → Word → Word) (k : Word) (s : State) :
    (roundStep f k s).c = rotl32 s.b 30 := by simp [roundStep]
@[simp] theorem roundStep_d (f : Word → Word → Word → Word) (k : Word) (s : State) :
    (roundStep f k s).d = s.c := by simp [roundStep]
@[simp] theorem roundStep_e (f : Word → Word → Word → Word) (k : Word) (s : State) :
    (roundStep f k s).e = s.d := by simp [roundStep]

theorem roundStep_t_val (f : Word → Word → Word → Word) (k : Word) (s : State) :
    (roundStep f k s).t.val = if s.t.val < 79 then s.t.val + 1 else 0 := advanceIndex_t_val _ _

theorem roundStep_phase (f : Word → Word → Word → Word) (k : Word) (s : State) :
    (roundStep f k s).phase = if s.t.val < 79 then s.phase else .hacc := advanceIndex_phase _ _

end Sys2Proof.Machine
end

