-- ==== Sys2Proof/Laws/Ops.lean ====
section
/-! SUPPORT. What each shared operation can do, said once. -/

namespace Sys2Proof.Machine

/-! ## The busy test -/

@[simp] theorem busy_eq_true (s : State) : busy s = true ↔ s.phase ≠ .idle := by simp [busy]

@[simp] theorem busy_eq_false (s : State) : busy s = false ↔ s.phase = .idle := by simp [busy]

/-! ## START -/

theorem processStart_busy {s : State} (h : s.phase ≠ .idle) : processStart s = s := by
  simp [processStart, h]

theorem processStart_overflow {s : State} (h : s.phase = .idle) (hl : maxLen < s.len.toNat) :
    processStart s = raiseLengthOverflow s := by
  have hb : busy s = false := (busy_eq_false s).2 h
  simp [processStart, hb, hl]

theorem processStart_accepted {s : State} (h : s.phase = .idle) (hl : s.len.toNat ≤ maxLen) :
    processStart s = acceptStart s := by
  have hb : busy s = false := (busy_eq_false s).2 h
  simp [processStart, hb, Nat.not_lt.2 hl]

/-- The three outcomes of a START, in the order of its tests (R164). -/
theorem processStart_cases (s : State) :
    (s.phase ≠ .idle ∧ processStart s = s) ∨
    (s.phase = .idle ∧ maxLen < s.len.toNat ∧ processStart s = raiseLengthOverflow s) ∨
    (s.phase = .idle ∧ s.len.toNat ≤ maxLen ∧ processStart s = acceptStart s) := by
  by_cases h : s.phase = .idle
  · rcases Nat.lt_or_ge maxLen s.len.toNat with hl | hl
    · exact .inr (.inl ⟨h, hl, processStart_overflow h hl⟩)
    · exact .inr (.inr ⟨h, hl, processStart_accepted h hl⟩)
  · exact .inl ⟨h, processStart_busy h⟩

/-- A write to LEN does nothing while busy and writes LEN alone while idle. -/
theorem writeLen_cases (l : BitVec 64) (s : State) :
    (s.phase ≠ .idle ∧ writeLen l s = s) ∨ (s.phase = .idle ∧ writeLen l s = { s with len := l }) := by
  by_cases h : s.phase = .idle
  · have hb : busy s = false := (busy_eq_false s).2 h
    exact .inr ⟨h, by simp [writeLen, hb]⟩
  · exact .inl ⟨h, by simp [writeLen, h]⟩

/-- A digest read returns the word while DONE is 1, and a free value otherwise. -/
theorem readDigest_cases (k : Fin 5) (s : State) :
    (s.done = true ∧ readDigest k s = returnToHost (digestWord s.digest k) s) ∨
    (s.done = false ∧ readDigest k s = returnFree s) := by
  cases h : s.done
  · exact .inr ⟨rfl, by simp [readDigest, h]⟩
  · exact .inl ⟨rfl, by simp [readDigest, h]⟩

/-! ## The block count -/

theorem nblk_pos (l : Nat) : 0 < nblk l := Nat.succ_pos _

theorem le_nblk (l : Nat) : l + 9 ≤ 64 * nblk l := by unfold nblk; omega

theorem nblk_le (l : Nat) : 64 * nblk l ≤ l + 72 := by unfold nblk; omega

theorem nblk_lt_of_len (l : BitVec 64) : nblk l.toNat < 2 ^ 59 := by
  have := l.isLt; unfold nblk; omega

/-- The block index counts up without wrapping (R26). -/
theorem toNat_bi_succ {s : State} (h : s.bi.toNat < nblk s.len.toNat) :
    (s.bi + 1).toNat = s.bi.toNat + 1 := by
  have h1 := nblk_lt_of_len s.len
  rw [BitVec.toNat_add]
  have h2 : (1 : BitVec 64).toNat = 1 := rfl
  rw [h2]
  exact Nat.mod_eq_of_lt (by omega)

/-! ## Loading a block -/

theorem mem_blockReads {l b j : Nat} : j ∈ blockReads l b ↔ j < l ∧ 64 * b ≤ j ∧ j < 64 * b + 64 := by
  simp only [blockReads, List.mem_filter, List.mem_map, List.mem_range, decide_eq_true_eq]
  constructor
  · rintro ⟨⟨k, hk, rfl⟩, hl⟩; omega
  · rintro ⟨hl, h1, h2⟩; exact ⟨⟨j - 64 * b, by omega, by omega⟩, hl⟩

/-- No load reads past the message space while LEN is an accepted length. -/
theorem missingOffset_none {s : State} (h : s.len.toNat ≤ maxLen) : missingOffset s = none := by
  unfold missingOffset
  rw [List.find?_eq_none]
  intro j hj
  have := (mem_blockReads.1 hj).1
  unfold maxLen at h
  have h2 : ¬ spaceSize ≤ j := by unfold spaceSize; omega
  simpa using h2

theorem padStated_of_legal {l b k : Nat} (hl : l ≤ maxLen) (hb : b < nblk l) (hk : k < 64) :
    padStated l (64 * b + k) = true := by
  simp only [padStated, Bool.or_eq_true, Bool.and_eq_true, decide_eq_true_eq]
  exact .inr ⟨hl, by omega⟩

theorem blockStated_of_legal {s : State} (hl : s.len.toNat ≤ maxLen) (hb : s.bi.toNat < nblk s.len.toNat) :
    blockStated s = true := by
  simp [blockStated, hl, hb]

theorem blockByte_of_legal {s : State} {k : Nat} (hl : s.len.toNat ≤ maxLen)
    (hb : s.bi.toNat < nblk s.len.toNat) (hk : k < 64) :
    blockByte s k = padByte s.msg.read s.len.toNat (64 * s.bi.toNat + k) := by
  simp [blockByte, padStated_of_legal hl hb hk]

/-- The padded message depends on the message bytes below its length alone (R111, R112). -/
theorem padByte_congr {m q : Nat → Byte} {l : Nat} (h : ∀ j, j < l → m j = q j) (j : Nat) :
    padByte m l j = padByte q l j := by
  unfold padByte
  split
  · exact h j ‹_›
  · rfl

theorem messageBlock_congr {m q : Nat → Byte} {l : Nat} (h : ∀ j, j < l → m j = q j) (n : Nat) :
    messageBlock m l n = messageBlock q l n := by
  unfold messageBlock
  congr 1
  funext k
  exact padByte_congr h _

/-- The contract depends on the message bytes below the length alone. -/
theorem hashBlocks_congr {m q : Nat → Byte} {l : Nat} (h : ∀ j, j < l → m j = q j) (n : Nat) :
    hashBlocks m l n = hashBlocks q l n := by
  induction n with
  | zero => rfl
  | succ n ih => simp only [hashBlocks, ih, messageBlock_congr h]

theorem digestOf_congr {m q : Nat → Byte} {l : Nat} (h : ∀ j, j < l → m j = q j) :
    digestOf m l = digestOf q l := by
  unfold digestOf; rw [hashBlocks_congr h]

end Sys2Proof.Machine
end

