-- ==== Sys2Proof/Laws/Contract.lean ====
section
/-! SUPPORT. The small lemmas of the contract's definitions: the schedule word by word, the rounds and the blocks
one by one, and the bytes of the digest. -/

namespace Sys2Proof.Machine

/-! ## The schedule -/

theorem expandWords_succ (w : Vector Word 80) (n : Nat) (h : 16 + n < 80) :
    expandWords w (n + 1) =
      (expandWords w n).set (16 + n) (nextWord (expandWords w n) (16 + n) (by omega) h) := by
  rw [expandWords, dif_pos h]

/-- A word once computed stays. -/
theorem expandWords_stable (w : Vector Word 80) {i n : Nat} (hi : i < 80) (h : i < 16 + n) (k : Nat) :
    (expandWords w (n + k))[i] = (expandWords w n)[i] := by
  induction k with
  | zero => rfl
  | succ k ih =>
    rw [← ih]
    by_cases hk : 16 + (n + k) < 80
    · have e := expandWords_succ w (n + k) hk
      simp only [← Nat.add_assoc] at e ⊢
      simp only [e]
      exact Vector.getElem_set_ne _ _ (by omega)
    · have e : expandWords w (n + k + 1) = expandWords w (n + k) := by rw [expandWords, dif_neg hk]
      simp only [← Nat.add_assoc, e]

/-- Words 0 to 15 are the block's (R120). -/
theorem scheduleOf_low (blk : Vector Byte 64) {i : Nat} (h : i < 16) :
    (scheduleOf blk)[i] = blockWord blk i h := by
  have e := expandWords_stable (loadWords blk (Vector.replicate 80 0)) (i := i) (n := 0) (by omega) (by omega) 64
  rw [Nat.zero_add] at e
  unfold scheduleOf
  rw [e]
  simp [expandWords, loadWords, h]

/-- Words 16 to 79 are each made of four earlier ones (R121). -/
theorem scheduleOf_high (blk : Vector Byte 64) {i : Nat} (h : 16 ≤ i) (hi : i < 80) :
    (scheduleOf blk)[i] = nextWord (scheduleOf blk) i h hi := by
  obtain ⟨n, rfl⟩ : ∃ n, i = 16 + n := ⟨i - 16, by omega⟩
  have stays : ∀ (a j : Nat) (_ : a ≤ 64) (_ : j < 16 + a) (_ : j < 80),
      (scheduleOf blk)[j] = (expandWords (loadWords blk (Vector.replicate 80 0)) a)[j] := by
    intro a j ha hj h80
    have e := expandWords_stable (loadWords blk (Vector.replicate 80 0)) h80 hj (64 - a)
    rw [show a + (64 - a) = 64 by omega] at e
    exact e
  rw [stays (n + 1) (16 + n) (by omega) (by omega) hi]
  simp only [expandWords_succ _ n hi]
  rw [Vector.getElem_set_self]
  unfold nextWord
  rw [← stays n _ (by omega) (by omega), ← stays n _ (by omega) (by omega), ← stays n _ (by omega) (by omega),
    ← stays n _ (by omega) (by omega)]

/-- In the states WXP runs in, the word it writes is the rule's (R121). -/
theorem expandedWord_of_le {s : State} (h : 16 ≤ s.t.val) :
    expandedWord s =
      rotl32 (s.w[s.t.val - 3] ^^^ s.w[s.t.val - 8] ^^^ s.w[s.t.val - 14] ^^^ s.w[s.t.val - 16]) 1 := by
  have h1 : 3 ≤ s.t.val := by omega
  have h2 : 8 ≤ s.t.val := by omega
  have h3 : 14 ≤ s.t.val := by omega
  simp only [expandedWord, tap, h1, h2, h3, h, if_true]

/-! ## Rounds and blocks -/

theorem rounds_succ (w : Vector Word 80) (r : Regs) {n : Nat} (h : n < 80) :
    rounds w r (n + 1) = oneRound w n h (rounds w r n) := by
  rw [rounds, dif_pos h]

/-- A round step of the machine is the round of the contract, on the machine's schedule (R132). -/
theorem regsOf_roundStep (s : State) :
    regsOf (roundStep (roundF s.t.val) (roundK s.t.val) s) = oneRound s.w s.t.val s.t.isLt (regsOf s) := by
  simp only [regsOf, roundStep_a, roundStep_b, roundStep_c, roundStep_d, roundStep_e]
  rfl

theorem hashBlocks_succ (m : Nat → Byte) (l n : Nat) :
    hashBlocks m l (n + 1) =
      addRegs (hashBlocks m l n)
        (rounds (scheduleOf (messageBlock m l n)) (initRegs (hashBlocks m l n)) 80) := rfl

/-! ## Bytes -/

theorem byteBe_toNat (v n k : Nat) : (byteBe v n k).toNat = v / 2 ^ (8 * (n - 1 - k)) % 256 := rfl

/-- Byte `4i+k` of the digest is byte `k` of word `i`, counted from the most significant (R150). -/
theorem serialize_getElem (h : Vector Word 5) (i : Fin 5) {k : Nat} (hk : k < 4) :
    (serialize h)[4 * i.val + k]'(by omega) = byteBe h[i].toNat 4 k := by
  have h1 : (4 * i.val + k) / 4 = i.val := by omega
  have h2 : (4 * i.val + k) % 4 = k := by omega
  simp [serialize, h1, h2]

end Sys2Proof.Machine
end

