-- ==== Sys2Proof/Laws/Encoding.lean ====
section
/-! SUPPORT. The fields of a built word, and the row table read by fields: a mask that keeps the bits from 32
up tests `we` and `reg`. -/

namespace Sys2Proof

@[simp] theorem hawWe_mkHaw_one (r : BitVec 4) (v : Word) : hawWe (mkHaw 1#1 r v) = true := by
  simp only [hawWe, mkHaw, BitVec.getLsbD_append]; rfl

@[simp] theorem hawWe_mkHaw_zero (r : BitVec 4) (v : Word) : hawWe (mkHaw 0#1 r v) = false := by
  simp only [hawWe, mkHaw, BitVec.getLsbD_append]; rfl

@[simp] theorem hawReg_mkHaw (e : BitVec 1) (r : BitVec 4) (v : Word) : hawReg (mkHaw e r v) = r := by
  apply BitVec.eq_of_getLsbD_eq
  intro i hi
  simp only [hawReg, mkHaw, BitVec.getLsbD_extractLsb', BitVec.getLsbD_append]
  have h1 : ¬ (32 + i < 32) := by omega
  have h2 : 32 + i - 32 = i := by omega
  simp [hi, h2]

@[simp] theorem hawData_mkHaw (e : BitVec 1) (r : BitVec 4) (v : Word) : hawData (mkHaw e r v) = v := by
  apply BitVec.eq_of_getLsbD_eq
  intro i hi
  simp only [hawData, mkHaw, BitVec.getLsbD_extractLsb', BitVec.getLsbD_append]
  simp [hi]

/-- A word is built from its three fields. -/
theorem mkHaw_fields (w : BitVec 37) :
    mkHaw (BitVec.ofBool (hawWe w)) (hawReg w) (hawData w) = w := by
  apply BitVec.eq_of_getLsbD_eq
  intro i hi
  simp only [mkHaw, hawWe, hawReg, hawData, BitVec.getLsbD_append, BitVec.getLsbD_extractLsb']
  rcases Nat.lt_or_ge i 32 with h | h
  · simp [h]
  · rcases Nat.lt_or_ge (i - 32) 4 with h' | h'
    · have : 32 + (i - 32) = i := by omega
      simp [show ¬ i < 32 by omega, h', this]
    · have : i = 36 := by omega
      subst this
      simp

theorem decode_wrWord (r : BitVec 4) (v : Word) : decode (wrWord r v) = decodeWrite r v := by
  simp [decode, wrWord, decodeHaw]

theorem decode_rdWord (r : BitVec 4) : decode (rdWord r) = decodeRead r := by
  simp [decode, rdWord, decodeHaw]

/-- A selector's PHASE code and group are its two fields (R74). -/
@[simp] theorem sel_code (p : BitVec 3) (g : BitVec 2) : (p ++ g).extractLsb' 2 3 = p := by
  revert p g; decide

@[simp] theorem sel_group (p : BitVec 3) (g : BitVec 2) : (p ++ g).extractLsb' 0 2 = g := by
  revert p g; decide

/-- The bits 36:32 of a word. -/
def hawTop (w : BitVec 37) : BitVec 5 := w.extractLsb' 32 5

/-- The bits 36:32 are `we` above `reg` (R71). -/
theorem hawTop_eq (w : BitVec 37) : hawTop w = BitVec.ofBool (hawWe w) ++ hawReg w := by
  apply BitVec.eq_of_getLsbD_eq
  intro i hi
  simp only [hawTop, hawWe, hawReg, BitVec.getLsbD_append, BitVec.getLsbD_extractLsb']
  rcases Nat.lt_or_ge i 4 with h | h
  · simp [h, hi]
  · have : i = 4 := by omega
    subst this
    simp

/-- A row whose mask and match have no bit below 32 tests the bits 36:32 alone. -/
theorem top_test (w : BitVec 37) (m k : BitVec 5) :
    (w &&& (k ++ (0 : Word)) = (m ++ (0 : Word) : BitVec 37)) ↔ (hawTop w &&& k = m) := by
  constructor
  · intro h
    apply BitVec.eq_of_getLsbD_eq
    intro i hi
    have := congrArg (fun x : BitVec 37 => x.getLsbD (32 + i)) h
    simp only [BitVec.getLsbD_and, BitVec.getLsbD_append] at this
    simp only [hawTop, BitVec.getLsbD_and, BitVec.getLsbD_extractLsb', hi, decide_true, Bool.true_and]
    simpa using this
  · intro h
    apply BitVec.eq_of_getLsbD_eq
    intro i hi
    simp only [BitVec.getLsbD_and, BitVec.getLsbD_append]
    rcases Nat.lt_or_ge i 32 with hl | hl
    · simp [hl]
    · have := congrArg (fun x : BitVec 5 => x.getLsbD (i - 32)) h
      simp only [hawTop, BitVec.getLsbD_and, BitVec.getLsbD_extractLsb'] at this
      have e : 32 + (i - 32) = i := by omega
      have l : i - 32 < 5 := by omega
      simpa [show ¬ i < 32 by omega, e, l] using this

/-- A row of WR CTRL tests the bits 36:32 and bit 0. -/
theorem ctrl_test (w : BitVec 37) (b : BitVec 1) (k m : BitVec 5) :
    (w &&& (k ++ (1 : Word)) = (m ++ (b.zeroExtend 32 : Word) : BitVec 37)) ↔
      (hawTop w &&& k = m ∧ BitVec.ofBool (w.getLsbD 0) = b) := by
  constructor
  · intro h
    constructor
    · apply BitVec.eq_of_getLsbD_eq
      intro i hi
      have := congrArg (fun x : BitVec 37 => x.getLsbD (32 + i)) h
      simp only [BitVec.getLsbD_and, BitVec.getLsbD_append] at this
      simp only [hawTop, BitVec.getLsbD_and, BitVec.getLsbD_extractLsb', hi, decide_true, Bool.true_and]
      simpa using this
    · have := congrArg (fun x : BitVec 37 => x.getLsbD 0) h
      simp only [BitVec.getLsbD_and, BitVec.getLsbD_append] at this
      apply BitVec.eq_of_getLsbD_eq
      intro i hi
      have : i = 0 := by omega
      subst this
      simp_all
  · rintro ⟨h, rfl⟩
    apply BitVec.eq_of_getLsbD_eq
    intro i hi
    simp only [BitVec.getLsbD_and, BitVec.getLsbD_append]
    rcases Nat.lt_or_ge i 32 with hl | hl
    · rcases Nat.eq_zero_or_pos i with h0 | h0
      · subst h0; simp
      · have h1 : (1 : Word).getLsbD i = false := by
          have := BitVec.getLsbD_one (w := 32) (i := i)
          simp_all [show ¬ i = 0 by omega]
        have h2 : ((BitVec.ofBool (w.getLsbD 0)).zeroExtend 32 : Word).getLsbD i = false := by
          simp only [BitVec.truncate_eq_setWidth, BitVec.getLsbD_setWidth]
          rw [BitVec.getLsbD_of_ge _ _ (by omega)]
          simp
        simp only [hl, if_true, h1, h2, Bool.and_false]
    · have := congrArg (fun x : BitVec 5 => x.getLsbD (i - 32)) h
      simp only [hawTop, BitVec.getLsbD_and, BitVec.getLsbD_extractLsb'] at this
      have e : 32 + (i - 32) = i := by omega
      have l : i - 32 < 5 := by omega
      simpa [show ¬ i < 32 by omega, e, l] using this

end Sys2Proof
end

