-- ==== Sys2Proof/Laws/Memory.lean ====
section
/-! SUPPORT. The laws of the message space: a read after a write, and the canonical form kept by every write. -/

namespace Sys2Proof.Machine

/-- A larger lower bound implies a smaller one. -/
theorem Memory.wfFrom_mono {lo lo' : Nat} (h : lo ≤ lo') :
    ∀ m : Memory, Memory.wfFrom lo' m = true → Memory.wfFrom lo m = true
  | [], _ => rfl
  | (k, x) :: rest, hm => by
    simp only [Memory.wfFrom, Bool.and_eq_true, decide_eq_true_eq, bne_iff_ne] at hm ⊢
    exact ⟨⟨⟨by omega, hm.1.1.2⟩, hm.1.2⟩, hm.2⟩

/-- An offset below every listed one is not listed. -/
theorem Memory.read_below {j : Nat} :
    ∀ (m : Memory) {lo : Nat}, Memory.wfFrom lo m = true → j < lo → m.read j = Config.unlistedByte
  | [], _, _, _ => rfl
  | (k, x) :: rest, lo, hm, hj => by
    simp only [Memory.wfFrom, Bool.and_eq_true, decide_eq_true_eq, bne_iff_ne] at hm
    have hne : j ≠ k := by omega
    simp only [Memory.read, if_neg hne]
    exact Memory.read_below rest hm.2 (by omega)

/-- Putting a cell before a list makes it the cell read there. -/
theorem Memory.read_push_same {m : Memory} {lo j : Nat} (x : Byte) (hm : Memory.wfFrom lo m = true)
    (hj : j < lo) : (Memory.push j x m).read j = x := by
  unfold Memory.push
  split
  · rename_i hx; rw [Memory.read_below m hm hj, hx]
  · simp [Memory.read]

theorem Memory.read_push_other {m : Memory} {i j : Nat} (x : Byte) (h : i ≠ j) :
    (Memory.push j x m).read i = m.read i := by
  unfold Memory.push
  split
  · rfl
  · simp [Memory.read, h]

/-- A read at the written offset gives the byte written. -/
theorem Memory.read_write_same {j : Nat} (x : Byte) :
    ∀ (m : Memory) {lo : Nat}, Memory.wfFrom lo m = true → (m.write j x).read j = x
  | [], lo, _ => Memory.read_push_same (lo := j + 1) x rfl (by omega)
  | (k, y) :: rest, lo, hm => by
    have hm' := hm
    simp only [Memory.wfFrom, Bool.and_eq_true, decide_eq_true_eq, bne_iff_ne] at hm'
    unfold Memory.write
    split
    · exact Memory.read_push_same (lo := j + 1) x
        (by simp only [Memory.wfFrom, Bool.and_eq_true, decide_eq_true_eq, bne_iff_ne]; exact ⟨⟨⟨by omega, hm'.1.1.2⟩, hm'.1.2⟩, hm'.2⟩) (by omega)
    · split
      · rename_i hjk
        exact Memory.read_push_same (lo := k + 1) x hm'.2 (by omega)
      · rename_i hlt hne
        simp only [Memory.read, if_neg hne]
        exact Memory.read_write_same x rest hm'.2

/-- A read at another offset gives what it gave before. -/
theorem Memory.read_write_other {i j : Nat} (x : Byte) (h : i ≠ j) :
    ∀ (m : Memory) {lo : Nat}, Memory.wfFrom lo m = true → (m.write j x).read i = m.read i
  | [], _, _ => Memory.read_push_other x h
  | (k, y) :: rest, lo, hm => by
    have hm' := hm
    simp only [Memory.wfFrom, Bool.and_eq_true, decide_eq_true_eq, bne_iff_ne] at hm'
    unfold Memory.write
    split
    · exact Memory.read_push_other x h
    · split
      · rename_i hjk
        rw [Memory.read_push_other x h]
        have : i ≠ k := by omega
        simp [Memory.read, this]
      · simp only [Memory.read]
        split
        · rfl
        · exact Memory.read_write_other x h rest hm'.2

/-- Putting a cell before a canonical list whose offsets are above it leaves a canonical list. -/
theorem Memory.wfFrom_push {m : Memory} {lo j : Nat} (x : Byte) (hlo : lo ≤ j) (hj : j < spaceSize)
    (hm : Memory.wfFrom (j + 1) m = true) : Memory.wfFrom lo (Memory.push j x m) = true := by
  unfold Memory.push
  split
  · exact Memory.wfFrom_mono (by omega) m hm
  · rename_i hx
    simp only [Memory.wfFrom, Bool.and_eq_true, decide_eq_true_eq, bne_iff_ne]
    exact ⟨⟨⟨hlo, hj⟩, hx⟩, hm⟩

theorem Memory.wfFrom_write {j : Nat} (x : Byte) (hj : j < spaceSize) :
    ∀ (m : Memory) {lo : Nat}, lo ≤ j → Memory.wfFrom lo m = true → Memory.wfFrom lo (m.write j x) = true
  | [], lo, hlo, _ => Memory.wfFrom_push x hlo hj rfl
  | (k, y) :: rest, lo, hlo, hm => by
    have hm' := hm
    simp only [Memory.wfFrom, Bool.and_eq_true, decide_eq_true_eq, bne_iff_ne] at hm'
    unfold Memory.write
    split
    · refine Memory.wfFrom_push x hlo hj ?_
      simp only [Memory.wfFrom, Bool.and_eq_true, decide_eq_true_eq, bne_iff_ne]
      exact ⟨⟨⟨by omega, hm'.1.1.2⟩, hm'.1.2⟩, hm'.2⟩
    · split
      · rename_i hjk
        exact Memory.wfFrom_push x hlo hj (Memory.wfFrom_mono (by omega) rest hm'.2)
      · simp only [Memory.wfFrom, Bool.and_eq_true, decide_eq_true_eq, bne_iff_ne]
        exact ⟨⟨⟨hm'.1.1.1, hm'.1.1.2⟩, hm'.1.2⟩, Memory.wfFrom_write x hj rest (by omega) hm'.2⟩

/-- Every write to an offset that exists keeps the canonical form. -/
theorem Memory.wf_write {m : Memory} {j : Nat} (x : Byte) (hj : j < spaceSize) (hm : m.wf = true) :
    (m.write j x).wf = true :=
  Memory.wfFrom_write x hj m (Nat.zero_le j) hm

/-- The message space after reset is in canonical form. -/
theorem Memory.wf_reset : State.reset.msg.wf = true := rfl

end Sys2Proof.Machine
end

