-- ==== Sys2Proof/Laws/PerInstr.lean ====
section
/-! SUPPORT. A fact of each instruction as syntax, one lemma a constructor: the word of a well-formed instruction
is hit by its own row of the opcode map (30_encoding.md R75, R76). -/

namespace Sys2Proof.Laws

/-- `w` is hit by a row of its format's table under the mnemonic `n`. -/
def InTable (n : String) : AccessWord → Prop
  | .haw w => ∃ r ∈ hawTable, r.mnemonic = n ∧ r.hits w = true
  | .sel s => ∃ r ∈ selTable, r.mnemonic = n ∧ r.hits s = true

/-- The bits 36:32 of a built word. -/
theorem hawTop_mkHaw (e : BitVec 1) (r : BitVec 4) (v : Word) : hawTop (mkHaw e r v) = e ++ r := by
  rw [hawTop_eq, hawReg_mkHaw]
  rcases (by decide : ∀ e : BitVec 1, e = 0#1 ∨ e = 1#1) e with rfl | rfl
  · rw [hawWe_mkHaw_zero]; rfl
  · rw [hawWe_mkHaw_one]; rfl

/-- A row that tests the bits 36:32 alone hits a built word when they match. -/
theorem inTable_top (n : String) (m k : BitVec 5) (e : BitVec 1) (r : BitVec 4) (v : Word)
    (hrow : ⟨n, m ++ (0 : Word), k ++ (0 : Word)⟩ ∈ hawTable) (h : (e ++ r) &&& k = m) :
    InTable n (.haw (mkHaw e r v)) := by
  refine ⟨_, hrow, rfl, ?_⟩
  simp only [Row.hits, beq_iff_eq]
  exact (top_test _ m k).2 (by rw [hawTop_mkHaw]; exact h)

/-- The rows of WR CTRL hit a built word by its bit 0. -/
theorem inTable_ctrl (n : String) (b : BitVec 1) (v : Word)
    (hrow : ⟨n, (0x10 : BitVec 5) ++ (b.zeroExtend 32 : Word), (0x1F : BitVec 5) ++ (1 : Word)⟩ ∈ hawTable)
    (h : BitVec.ofBool (v.getLsbD 0) = b) : InTable n (.haw (mkHaw 1 0 v)) := by
  refine ⟨_, hrow, rfl, ?_⟩
  simp only [Row.hits, beq_iff_eq]
  refine (ctrl_test _ b 0x1F 0x10).2 ⟨by rw [hawTop_mkHaw]; rfl, ?_⟩
  rw [← h]
  have : (mkHaw 1 0 v).getLsbD 0 = (hawData (mkHaw 1 0 v)).getLsbD 0 := by
    simp only [hawData, BitVec.getLsbD_extractLsb']; rfl
  rw [this, hawData_mkHaw]

/-- The statement of the family: a well-formed instruction's word is hit by its own row. -/
def TableRow.Statement (i : Instr) : Prop := i.WellFormed → InTable i.mnemonic (encode i)

theorem TableRow.start (v : Word) : TableRow.Statement (.start v) := fun h =>
  inTable_ctrl "START" 1 v (by decide) (by have h' : v.getLsbD 0 = true := h; rw [h']; rfl)

theorem TableRow.ctrlnop (v : Word) : TableRow.Statement (.ctrlnop v) := fun h =>
  inTable_ctrl "CTRLNOP" 0 v (by decide) (by have h' : (!v.getLsbD 0) = true := h; rw [Bool.not_eq_true'] at h'; rw [h']; rfl)

theorem TableRow.wrlenlo (v : Word) : TableRow.Statement (.wrlenlo v) := fun _ =>
  inTable_top "WRLENLO" 0x12 0x1F 1 2 v (by decide) (by decide)

theorem TableRow.wrlenhi (v : Word) : TableRow.Statement (.wrlenhi v) := fun _ =>
  inTable_top "WRLENHI" 0x13 0x1F 1 3 v (by decide) (by decide)

theorem TableRow.rdctrl : TableRow.Statement .rdctrl := fun _ =>
  inTable_top "RDCTRL" 0x0 0x1F 0 0 0 (by decide) (by decide)

theorem TableRow.rdstatus : TableRow.Statement .rdstatus := fun _ =>
  inTable_top "RDSTATUS" 0x1 0x1F 0 1 0 (by decide) (by decide)

theorem TableRow.rdlenlo : TableRow.Statement .rdlenlo := fun _ =>
  inTable_top "RDLENLO" 0x2 0x1F 0 2 0 (by decide) (by decide)

theorem TableRow.rdlenhi : TableRow.Statement .rdlenhi := fun _ =>
  inTable_top "RDLENHI" 0x3 0x1F 0 3 0 (by decide) (by decide)

theorem TableRow.rddig0 : TableRow.Statement .rddig0 := fun _ =>
  inTable_top "RDDIG0" 0x4 0x1F 0 4 0 (by decide) (by decide)

theorem TableRow.rddig1 : TableRow.Statement .rddig1 := fun _ =>
  inTable_top "RDDIG1" 0x5 0x1F 0 5 0 (by decide) (by decide)

theorem TableRow.rddig2 : TableRow.Statement .rddig2 := fun _ =>
  inTable_top "RDDIG2" 0x6 0x1F 0 6 0 (by decide) (by decide)

theorem TableRow.rddig3 : TableRow.Statement .rddig3 := fun _ =>
  inTable_top "RDDIG3" 0x7 0x1F 0 7 0 (by decide) (by decide)

theorem TableRow.rddig4 : TableRow.Statement .rddig4 := fun _ =>
  inTable_top "RDDIG4" 0x8 0x1F 0 8 0 (by decide) (by decide)

theorem TableRow.wrstatus (v : Word) : TableRow.Statement (.wrstatus v) := fun _ =>
  inTable_top "WRSTATUS" 0x11 0x1F 1 1 v (by decide) (by decide)

theorem TableRow.wrdig03 (r : BitVec 4) (v : Word) : TableRow.Statement (.wrdig03 r v) := fun h =>
  inTable_top "WRDIG0_3" 0x14 0x1c 1 r v (by decide)
    ((by decide : ∀ r : BitVec 4, (4 ≤ r.toNat && r.toNat ≤ 7 : Bool) = true → (1#1 ++ r) &&& 0x1c#5 = 0x14#5) r h)

theorem TableRow.wrdig4 (v : Word) : TableRow.Statement (.wrdig4 v) := fun _ =>
  inTable_top "WRDIG4" 0x18 0x1F 1 8 v (by decide) (by decide)

theorem TableRow.rdrsv9 : TableRow.Statement .rdrsv9 := fun _ =>
  inTable_top "RDRSV9" 0x9 0x1F 0 9 0 (by decide) (by decide)

theorem TableRow.rdrsv10to11 (r : BitVec 4) : TableRow.Statement (.rdrsv10to11 r) := fun h =>
  inTable_top "RDRSV10_11" 0xa 0x1e 0 r 0 (by decide)
    ((by decide : ∀ r : BitVec 4, (10 ≤ r.toNat && r.toNat ≤ 11 : Bool) = true → (0#1 ++ r) &&& 0x1e#5 = 0xa#5) r h)

theorem TableRow.rdrsv12to15 (r : BitVec 4) : TableRow.Statement (.rdrsv12to15 r) := fun h =>
  inTable_top "RDRSV12_15" 0xc 0x1c 0 r 0 (by decide)
    ((by decide : ∀ r : BitVec 4, (12 ≤ r.toNat : Bool) = true → (0#1 ++ r) &&& 0x1c#5 = 0xc#5) r h)

theorem TableRow.wrrsv9 (v : Word) : TableRow.Statement (.wrrsv9 v) := fun _ =>
  inTable_top "WRRSV9" 0x19 0x1F 1 9 v (by decide) (by decide)

theorem TableRow.wrrsv10to11 (r : BitVec 4) (v : Word) : TableRow.Statement (.wrrsv10to11 r v) := fun h =>
  inTable_top "WRRSV10_11" 0x1a 0x1e 1 r v (by decide)
    ((by decide : ∀ r : BitVec 4, (10 ≤ r.toNat && r.toNat ≤ 11 : Bool) = true → (1#1 ++ r) &&& 0x1e#5 = 0x1a#5) r h)

theorem TableRow.wrrsv12to15 (r : BitVec 4) (v : Word) : TableRow.Statement (.wrrsv12to15 r v) := fun h =>
  inTable_top "WRRSV12_15" 0x1c 0x1c 1 r v (by decide)
    ((by decide : ∀ r : BitVec 4, (12 ≤ r.toNat : Bool) = true → (1#1 ++ r) &&& 0x1c#5 = 0x1c#5) r h)

theorem TableRow.idle : TableRow.Statement .idle := fun _ => by
  simp only [Instr.mnemonic, encode, selWord, InTable]; decide

theorem TableRow.ldblk : TableRow.Statement .ldblk := fun _ => by
  simp only [Instr.mnemonic, encode, selWord, InTable]; decide

theorem TableRow.wld : TableRow.Statement .wld := fun _ => by
  simp only [Instr.mnemonic, encode, selWord, InTable]; decide

theorem TableRow.wxp : TableRow.Statement .wxp := fun _ => by
  simp only [Instr.mnemonic, encode, selWord, InTable]; decide

theorem TableRow.winit : TableRow.Statement .winit := fun _ => by
  simp only [Instr.mnemonic, encode, selWord, InTable]; decide

theorem TableRow.rnd0 : TableRow.Statement .rnd0 := fun _ => by
  simp only [Instr.mnemonic, encode, selWord, InTable]; decide

theorem TableRow.rnd1 : TableRow.Statement .rnd1 := fun _ => by
  simp only [Instr.mnemonic, encode, selWord, InTable]; decide

theorem TableRow.rnd2 : TableRow.Statement .rnd2 := fun _ => by
  simp only [Instr.mnemonic, encode, selWord, InTable]; decide

theorem TableRow.rnd3 : TableRow.Statement .rnd3 := fun _ => by
  simp only [Instr.mnemonic, encode, selWord, InTable]; decide

theorem TableRow.hacc : TableRow.Statement .hacc := fun _ => by
  simp only [Instr.mnemonic, encode, selWord, InTable]; decide

theorem TableRow.dser : TableRow.Statement .dser := fun _ => by
  simp only [Instr.mnemonic, encode, selWord, InTable]; decide

end Sys2Proof.Laws
end

