-- ==== Sys2Proof/Laws/Step.lean ====
section
/-! SUPPORT. What a step can do, said once: which turn it takes, and that no instruction touches the schedule. -/

namespace Sys2Proof.Machine

/-! ## One step, by its turn -/

theorem step_engine {s : State} (h : nextTurn s = .engine) : step s = exec (microOp s) (popTurn s) := by
  unfold step; rw [h]; rfl

theorem step_host {s : State} {w : BitVec 37} (h : nextTurn s = .host w) :
    step s = exec (decodeHaw w) (popTurn s) := by
  unfold step; rw [h]

theorem step_reset {s : State} (h : nextTurn s = .reset) : step s = .next (resetEvent (popTurn s)) := by
  unfold step; rw [h]

theorem step_writeMsg {s : State} {j : BitVec 61} {x : Byte} (h : nextTurn s = .writeMsg j x) :
    step s = .next (hostWriteMsg j x (popTurn s)) := by
  unfold step; rw [h]

/-- A step that completes is one of the four turns. -/
theorem step_cases {s u : State} (h : step s = .next u) :
    (nextTurn s = .engine ∧ exec (microOp s) (popTurn s) = .next u) ∨
    (∃ w, nextTurn s = .host w ∧ exec (decodeHaw w) (popTurn s) = .next u) ∨
    (nextTurn s = .reset ∧ u = resetEvent (popTurn s)) ∨
    (∃ j x, nextTurn s = .writeMsg j x ∧ u = hostWriteMsg j x (popTurn s)) := by
  cases ht : nextTurn s with
  | engine => exact .inl ⟨rfl, (step_engine ht).symm.trans h⟩
  | host w => exact .inr (.inl ⟨w, rfl, (step_host ht).symm.trans h⟩)
  | reset => exact .inr (.inr (.inl ⟨rfl, (Host.Outcome.next.inj ((step_reset ht).symm.trans h)).symm⟩))
  | writeMsg j x =>
    exact .inr (.inr (.inr ⟨j, x, rfl, (Host.Outcome.next.inj ((step_writeMsg ht).symm.trans h)).symm⟩))

@[simp] theorem microOp_popTurn (s : State) : microOp (popTurn s) = microOp s := rfl

@[simp] theorem busy_popTurn (s : State) : busy (popTurn s) = busy s := rfl

/-- An empty schedule gives the engine the turn. -/
theorem nextTurn_nil {s : State} (h : s.sched = []) : nextTurn s = .engine := by
  unfold nextTurn; rw [h]

theorem nextTurn_cons {s : State} {x : Turn} {rest : List Turn} (h : s.sched = x :: rest) :
    nextTurn s = x := by
  unfold nextTurn; rw [h]

/-! ## The micro-operation of a phase -/

theorem microOp_of_phase (s : State) : microOp s = decodeSel (s.phase.code ++ group s.t) := rfl

theorem microOp_of_ne_rnd {s : State} (h : s.phase ≠ .rnd) :
    microOp s = decodeSel (s.phase.code ++ (0 : BitVec 2)) := by
  rw [microOp_of_phase]
  have : ∀ (p : Phase) (g : BitVec 2), p ≠ .rnd →
      decodeSel (p.code ++ g) = decodeSel (p.code ++ (0 : BitVec 2)) := by
    intro p
    cases p <;> decide
  exact this _ _ h

theorem microOp_rnd {s : State} (h : s.phase = .rnd) : microOp s = decodeSel ((5 : BitVec 3) ++ group s.t) := by
  rw [microOp_of_phase, h]; rfl

/-! ## No instruction touches the schedule -/

/-- Every instruction completes but LDBLK, which stops exactly when an offset it reads does not exist. -/
theorem exec_next_or_missing (i : Instr) (s : State) :
    (∃ u, exec i s = .next u) ∨ (i = .ldblk ∧ ∃ j, missingOffset s = some j ∧ exec i s = .fault (.noSuchOffset j)) := by
  cases i
  case ldblk =>
    cases h : missingOffset s with
    | none => exact .inl ⟨loadBlock s, by simp only [exec, execLdblk, h]⟩
    | some j => exact .inr ⟨rfl, j, rfl, by simp only [exec, execLdblk, h]⟩
  all_goals exact .inl ⟨_, rfl⟩

/-- LDBLK, when it completes, is `loadBlock`. -/
theorem exec_ldblk_next {s u : State} (h : exec .ldblk s = .next u) : u = loadBlock s := by
  simp only [exec, execLdblk] at h
  split at h
  · cases h
  · exact (Host.Outcome.next.inj h).symm

theorem processStart_sched (s : State) : (processStart s).sched = s.sched := by
  rcases processStart_cases s with ⟨-, h⟩ | ⟨-, -, h⟩ | ⟨-, -, h⟩ <;> rw [h] <;> rfl

theorem writeLen_sched (l : BitVec 64) (s : State) : (writeLen l s).sched = s.sched := by
  rcases writeLen_cases l s with ⟨-, h⟩ | ⟨-, h⟩ <;> rw [h]

theorem readDigest_sched (k : Fin 5) (s : State) : (readDigest k s).sched = s.sched := by
  rcases readDigest_cases k s with ⟨-, h⟩ | ⟨-, h⟩ <;> rw [h] <;> rfl

/-- What a host operation can do: nothing, process a START, write LEN, or return a value. -/
theorem exec_host_cases {i : Instr} {s u : State} (hi : i.agent = .host) (h : exec i s = .next u) :
    u = s ∨ ((∃ v, i = .start v) ∧ u = processStart s) ∨
    (((∃ v, i = .wrlenlo v) ∨ ∃ v, i = .wrlenhi v) ∧ ∃ l, u = writeLen l s) ∨
    (i.isRead = true ∧ ((∃ v, u = returnToHost v s) ∨ u = returnFree s)) := by
  have hd : ∀ k, i.isRead = true → u = readDigest k s → u = s ∨ ((∃ v, i = .start v) ∧ u = processStart s) ∨
      (((∃ v, i = .wrlenlo v) ∨ ∃ v, i = .wrlenhi v) ∧ ∃ l, u = writeLen l s) ∨
      (i.isRead = true ∧ ((∃ v, u = returnToHost v s) ∨ u = returnFree s)) := by
    rintro k hr rfl
    rcases readDigest_cases k s with ⟨-, e⟩ | ⟨-, e⟩
    · exact .inr (.inr (.inr ⟨hr, .inl ⟨_, e⟩⟩))
    · exact .inr (.inr (.inr ⟨hr, .inr e⟩))
  cases i
  case start v => exact .inr (.inl ⟨⟨v, rfl⟩, (Host.Outcome.next.inj h).symm⟩)
  case wrlenlo v => exact .inr (.inr (.inl ⟨.inl ⟨v, rfl⟩, _, (Host.Outcome.next.inj h).symm⟩))
  case wrlenhi v => exact .inr (.inr (.inl ⟨.inr ⟨v, rfl⟩, _, (Host.Outcome.next.inj h).symm⟩))
  case rddig0 => exact hd 0 rfl (Host.Outcome.next.inj h).symm
  case rddig1 => exact hd 1 rfl (Host.Outcome.next.inj h).symm
  case rddig2 => exact hd 2 rfl (Host.Outcome.next.inj h).symm
  case rddig3 => exact hd 3 rfl (Host.Outcome.next.inj h).symm
  case rddig4 => exact hd 4 rfl (Host.Outcome.next.inj h).symm
  case ctrlnop | wrstatus | wrdig03 | wrdig4 | wrrsv9 | wrrsv10to11 | wrrsv12to15 =>
    exact .inl (Host.Outcome.next.inj h).symm
  case rdctrl | rdstatus | rdlenlo | rdlenhi | rdrsv9 | rdrsv10to11 | rdrsv12to15 =>
    exact .inr (.inr (.inr ⟨rfl, .inl ⟨_, (Host.Outcome.next.inj h).symm⟩⟩))
  all_goals cases hi

/-- A round, whichever of the four kinds the micro-operation is. -/
def roundOf : Instr → Option ((Word → Word → Word → Word) × Word)
  | .rnd0 => some (fSelect, k0)
  | .rnd1 => some (fXor, k1)
  | .rnd2 => some (fMajority, k2)
  | .rnd3 => some (fXor, k3)
  | _ => none

/-- What a micro-operation can do. -/
theorem exec_engine_cases {i : Instr} {s u : State} (hi : i.agent = .engine) (h : exec i s = .next u) :
    (i = .idle ∧ u = s) ∨ (i = .ldblk ∧ u = loadBlock s) ∨ (i = .wld ∧ u = loadSchedule s) ∨
    (i = .wxp ∧ u = advanceIndex .winit (writeExpanded s)) ∨ (i = .winit ∧ u = initWorking s) ∨
    (∃ f k, roundOf i = some (f, k) ∧ u = roundStep f k s) ∨
    (i = .hacc ∧ u = finishBlock s) ∨ (i = .dser ∧ u = finishRun s) := by
  cases i
  case idle => exact .inl ⟨rfl, (Host.Outcome.next.inj h).symm⟩
  case ldblk => exact .inr (.inl ⟨rfl, exec_ldblk_next h⟩)
  case wld => exact .inr (.inr (.inl ⟨rfl, (Host.Outcome.next.inj h).symm⟩))
  case wxp => exact .inr (.inr (.inr (.inl ⟨rfl, (Host.Outcome.next.inj h).symm⟩)))
  case winit => exact .inr (.inr (.inr (.inr (.inl ⟨rfl, (Host.Outcome.next.inj h).symm⟩))))
  case rnd0 | rnd1 | rnd2 | rnd3 =>
    exact .inr (.inr (.inr (.inr (.inr (.inl ⟨_, _, rfl, (Host.Outcome.next.inj h).symm⟩)))))
  case hacc =>
    exact .inr (.inr (.inr (.inr (.inr (.inr (.inl ⟨rfl, (Host.Outcome.next.inj h).symm⟩))))))
  case dser =>
    exact .inr (.inr (.inr (.inr (.inr (.inr (.inr ⟨rfl, (Host.Outcome.next.inj h).symm⟩))))))
  all_goals cases hi

/-- No instruction touches the turns to come. -/
theorem exec_sched {i : Instr} {s u : State} (h : exec i s = .next u) : u.sched = s.sched := by
  cases hi : i.agent with
  | host =>
    rcases exec_host_cases hi h with rfl | ⟨-, rfl⟩ | ⟨-, l, rfl⟩ | ⟨-, ⟨v, rfl⟩ | rfl⟩
    · rfl
    · exact processStart_sched s
    · exact writeLen_sched l s
    · simp
    · simp
  | engine =>
    rcases exec_engine_cases hi h with ⟨-, rfl⟩ | ⟨-, rfl⟩ | ⟨-, rfl⟩ | ⟨-, rfl⟩ | ⟨-, rfl⟩ | ⟨f, k, -, rfl⟩ |
      ⟨-, rfl⟩ | ⟨-, rfl⟩ <;> simp [roundStep]

/-- The operation of an access word is the host's (R70). -/
theorem decodeHaw_agent (w : BitVec 37) : (decodeHaw w).agent = .host := by
  unfold decodeHaw decodeWrite decodeRead
  split
  · split <;> first | rfl | (split <;> rfl)
  · split <;> rfl

/-- The operation of a selector is the engine's (R70). -/
theorem decodeSel_agent : ∀ q : BitVec 5, (decodeSel q).agent = .engine := by decide

theorem processStart_stream (s : State) : (processStart s).stream = s.stream := by
  rcases processStart_cases s with ⟨-, h⟩ | ⟨-, -, h⟩ | ⟨-, -, h⟩ <;> rw [h] <;> rfl

theorem writeLen_stream (l : BitVec 64) (s : State) : (writeLen l s).stream = s.stream := by
  rcases writeLen_cases l s with ⟨-, h⟩ | ⟨-, h⟩ <;> rw [h]

/-- No instruction changes the stream that free values are drawn from. -/
theorem exec_stream {i : Instr} {s u : State} (h : exec i s = .next u) : u.stream = s.stream := by
  cases hi : i.agent with
  | host =>
    rcases exec_host_cases hi h with rfl | ⟨-, rfl⟩ | ⟨-, l, rfl⟩ | ⟨-, ⟨v, rfl⟩ | rfl⟩
    · rfl
    · exact processStart_stream s
    · exact writeLen_stream l s
    · simp
    · simp
  | engine =>
    rcases exec_engine_cases hi h with ⟨-, rfl⟩ | ⟨-, rfl⟩ | ⟨-, rfl⟩ | ⟨-, rfl⟩ | ⟨-, rfl⟩ | ⟨f, k, -, rfl⟩ |
      ⟨-, rfl⟩ | ⟨-, rfl⟩ <;> simp

/-- No step changes it. -/
theorem step_stream {s u : State} (h : step s = .next u) : u.stream = s.stream := by
  rcases step_cases h with ⟨-, he⟩ | ⟨w, -, he⟩ | ⟨-, rfl⟩ | ⟨j, x, -, rfl⟩
  · exact (exec_stream he).trans rfl
  · exact (exec_stream he).trans rfl
  · simp
  · simp

/-- A step takes one turn off the schedule. -/
theorem step_sched {s u : State} (h : step s = .next u) : u.sched = s.sched.tail := by
  rcases step_cases h with ⟨-, he⟩ | ⟨w, -, he⟩ | ⟨-, rfl⟩ | ⟨j, x, -, rfl⟩
  · exact (exec_sched he).trans rfl
  · exact (exec_sched he).trans rfl
  · simp
  · simp

/-! ## Runs -/

theorem core_run_zero (s : State) : Sys2Proof.core.run 0 s = .next s := rfl

/-- A run of any machine whose first step completes goes on from the state that step leaves. -/
theorem run_succ (M : Host.Core) (n : Nat) {s u : M.State} (h : M.step s = .next u) :
    M.run (n + 1) s = M.run n u := by
  rw [Host.Core.run, h]

theorem core_run_succ (n : Nat) {s u : State} (h : step s = .next u) :
    Sys2Proof.core.run (n + 1) s = Sys2Proof.core.run n u := run_succ Sys2Proof.core n h

/-- The engine's turns are recorded, the others are not. -/
theorem microTrace_succ (n : Nat) {s u : State} (h : step s = .next u) :
    microTrace (n + 1) s = (if nextTurn s = .engine then [microOp s] else []) ++ microTrace n u := by
  rw [microTrace, h]

end Sys2Proof.Machine
end

