-- ==== Sys2Proof/Laws/System.lean ====
section
/-! SUPPORT. What a step of a system of several engines can do. -/

namespace Sys2Proof.Machine

/-- After reset the instances are the reset state, each with the stream of its place. -/
theorem reset_engine {n k : Nat} {s : State} (h : (System.reset n).engines[k]? = some s) :
    s = { State.reset with stream := k } := by
  obtain ⟨hk, rfl⟩ := List.getElem?_eq_some_iff.1 h
  simp [System.reset]

theorem streamsApart_reset (n : Nat) : (System.reset n).StreamsApart := by
  intro k s h
  rw [reset_engine h]

/-- A step that completes moves nothing, or moves one instance by its own step. -/
theorem stepAt_cases {k : Nat} {y z : System} (h : System.stepAt k y = .next z) :
    (y.engines[k]? = none ∧ z = y) ∨
    ∃ s u, y.engines[k]? = some s ∧ step s = .next u ∧ z = ⟨y.engines.set k u⟩ := by
  unfold System.stepAt at h
  split at h
  · exact .inl ⟨‹_›, (Host.Outcome.next.inj h).symm⟩
  · split at h
    · exact .inr ⟨_, _, ‹_›, ‹_›, (Host.Outcome.next.inj h).symm⟩
    · cases h
    · cases h

end Sys2Proof.Machine
end

