-- ==== Sys2Proof/Tests/Slice0.lean ====
section
/-! SUPPORT. Tests. Expected values are those of spec/95_test_vectors.md (cited as V<n>) and the encodings of
spec/30_encoding.md. Then, for every statement with hypotheses, a state and operands that meet them. -/

open Sys2Proof Sys2Proof.Machine

namespace Sys2Proof.Tests

/-! ## Ill-formed terms are refused -/

theorem test_wf_start : ¬ (Instr.start 0xFFFFFFFE).WellFormed := by decide
theorem test_wf_ctrlnop : ¬ (Instr.ctrlnop 1).WellFormed := by decide
theorem test_wf_wrdig03 : ¬ (Instr.wrdig03 3 0).WellFormed ∧ ¬ (Instr.wrdig03 8 0).WellFormed := by decide
theorem test_wf_rdrsv10to11 : ¬ (Instr.rdrsv10to11 9).WellFormed ∧ ¬ (Instr.rdrsv10to11 12).WellFormed := by
  decide
theorem test_wf_rdrsv12to15 : ¬ (Instr.rdrsv12to15 11).WellFormed := by decide
theorem test_wf_wrrsv10to11 : ¬ (Instr.wrrsv10to11 9 0).WellFormed ∧ ¬ (Instr.wrrsv10to11 12 0).WellFormed := by
  decide
theorem test_wf_wrrsv12to15 : ¬ (Instr.wrrsv12to15 0 0).WellFormed := by decide

/-! ## Words written out bit by bit: `we`, `reg`, `data` (R71, R75) and PHASE, G (R74, R76) -/

theorem test_decode_start : decodeHaw (0b1#1 ++ 0b0000#4 ++ 0xFFFFFFFF#32) = .start 0xFFFFFFFF := by decide
theorem test_decode_ctrlnop : decodeHaw (0b1#1 ++ 0b0000#4 ++ 0x00000002#32) = .ctrlnop 2 := by decide
theorem test_decode_wrstatus : decodeHaw (0b1#1 ++ 0b0001#4 ++ 0x00000007#32) = .wrstatus 7 := by decide
theorem test_decode_wrlenlo : decodeHaw (0b1#1 ++ 0b0010#4 ++ 0x00000040#32) = .wrlenlo 0x40 := by decide
theorem test_decode_wrlenhi : decodeHaw (0b1#1 ++ 0b0011#4 ++ 0xFFFFFFFF#32) = .wrlenhi 0xFFFFFFFF := by decide
theorem test_decode_wrdig03 :
    decodeHaw (0b1#1 ++ 0b0100#4 ++ 0x80000001#32) = .wrdig03 4 0x80000001 ∧
    decodeHaw (0b1#1 ++ 0b0111#4 ++ 0#32) = .wrdig03 7 0 := by decide
theorem test_decode_wrdig4 : decodeHaw (0b1#1 ++ 0b1000#4 ++ 0x00000005#32) = .wrdig4 5 := by decide
theorem test_decode_wrrsv9 : decodeHaw (0b1#1 ++ 0b1001#4 ++ 0xFFFFFFFF#32) = .wrrsv9 0xFFFFFFFF := by decide
theorem test_decode_wrrsv10to11 :
    decodeHaw (0b1#1 ++ 0b1010#4 ++ 0x00000001#32) = .wrrsv10to11 10 1 ∧
    decodeHaw (0b1#1 ++ 0b1011#4 ++ 0x00000001#32) = .wrrsv10to11 11 1 := by decide
theorem test_decode_wrrsv12to15 :
    decodeHaw (0b1#1 ++ 0b1100#4 ++ 0x00000001#32) = .wrrsv12to15 12 1 ∧
    decodeHaw (0b1#1 ++ 0b1111#4 ++ 0x00000001#32) = .wrrsv12to15 15 1 := by decide
theorem test_decode_rdctrl : decodeHaw (0b0#1 ++ 0b0000#4 ++ 0x00000001#32) = .rdctrl := by decide
theorem test_decode_rdstatus : decodeHaw (0b0#1 ++ 0b0001#4 ++ 0xDEADBEEF#32) = .rdstatus := by decide
theorem test_decode_rdlenlo : decodeHaw (0b0#1 ++ 0b0010#4 ++ 0#32) = .rdlenlo := by decide
theorem test_decode_rdlenhi : decodeHaw (0b0#1 ++ 0b0011#4 ++ 0#32) = .rdlenhi := by decide
theorem test_decode_rddig0 : decodeHaw (0b0#1 ++ 0b0100#4 ++ 0#32) = .rddig0 := by decide
theorem test_decode_rddig1 : decodeHaw (0b0#1 ++ 0b0101#4 ++ 0#32) = .rddig1 := by decide
theorem test_decode_rddig2 : decodeHaw (0b0#1 ++ 0b0110#4 ++ 0#32) = .rddig2 := by decide
theorem test_decode_rddig3 : decodeHaw (0b0#1 ++ 0b0111#4 ++ 0#32) = .rddig3 := by decide
theorem test_decode_rddig4 : decodeHaw (0b0#1 ++ 0b1000#4 ++ 0#32) = .rddig4 := by decide
theorem test_decode_rdrsv9 : decodeHaw (0b0#1 ++ 0b1001#4 ++ 0#32) = .rdrsv9 := by decide
theorem test_decode_rdrsv10to11 :
    decodeHaw (0b0#1 ++ 0b1010#4 ++ 0#32) = .rdrsv10to11 10 ∧
    decodeHaw (0b0#1 ++ 0b1011#4 ++ 0#32) = .rdrsv10to11 11 := by decide
theorem test_decode_rdrsv12to15 :
    decodeHaw (0b0#1 ++ 0b1101#4 ++ 0#32) = .rdrsv12to15 13 ∧
    decodeHaw (0b0#1 ++ 0b1111#4 ++ 0#32) = .rdrsv12to15 15 := by decide
theorem test_decode_idle : decodeSel (0b000#3 ++ 0b00#2) = .idle := by decide
theorem test_decode_ldblk : decodeSel (0b001#3 ++ 0b00#2) = .ldblk := by decide
theorem test_decode_wld : decodeSel (0b010#3 ++ 0b00#2) = .wld := by decide
theorem test_decode_wxp : decodeSel (0b011#3 ++ 0b10#2) = .wxp := by decide
theorem test_decode_winit : decodeSel (0b100#3 ++ 0b00#2) = .winit := by decide
theorem test_decode_rnd0 : decodeSel (0b101#3 ++ 0b00#2) = .rnd0 := by decide
theorem test_decode_rnd1 : decodeSel (0b101#3 ++ 0b01#2) = .rnd1 := by decide
theorem test_decode_rnd2 : decodeSel (0b101#3 ++ 0b10#2) = .rnd2 := by decide
theorem test_decode_rnd3 : decodeSel (0b101#3 ++ 0b11#2) = .rnd3 := by decide
theorem test_decode_hacc : decodeSel (0b110#3 ++ 0b00#2) = .hacc := by decide
theorem test_decode_dser : decodeSel (0b111#3 ++ 0b00#2) = .dser := by decide

/-- A number with a bit above its format is rejected (R71: bits 38 and up are no part of an access word). -/
theorem test_decode_rejects : decodeTableWord 40 0x2000000000 = none ∧ decodeTableWord 8 0x20 = none := by decide

/-- V57: the selectors at the ends of the round groups. -/
theorem test_sel_groups :
    sel { State.reset with phase := .rnd, t := 19 } = 0x14 ∧ sel { State.reset with phase := .rnd, t := 20 } = 0x15 ∧
    sel { State.reset with phase := .rnd, t := 39 } = 0x15 ∧ sel { State.reset with phase := .rnd, t := 40 } = 0x16 ∧
    sel { State.reset with phase := .rnd, t := 60 } = 0x17 ∧ sel { State.reset with phase := .wxp, t := 47 } = 0x0E := by
  decide

/-! ## Helpers -/

/-- The instruction gives a next state with the property. -/
def after (i : Instr) (s : State) (p : State → Bool) : Bool :=
  match exec i s with
  | .next u => p u
  | .fault _ => false
  | .refused _ => false

/-- The step gives a next state with the property. -/
def afterStep (s : State) (p : State → Bool) : Bool :=
  match step s with
  | .next u => p u
  | .fault _ => false
  | .refused _ => false

/-- A state in a phase, at an index. -/
def inPhase (p : Phase) (t : Fin 80) : State := { State.reset with phase := p, t := t }

/-- An idle state with a length. -/
def idleWith (l : BitVec 64) : State := { State.reset with len := l }

/-- An idle state with a valid digest, that of the empty message (V1). -/
def finished : State :=
  { State.reset with
    done := true
    digest := #v[0xda, 0x39, 0xa3, 0xee, 0x5e, 0x6b, 0x4b, 0x0d, 0x32, 0x55, 0xbf, 0xef, 0x95, 0x60, 0x18, 0x90,
      0xaf, 0xd8, 0x07, 0x09] }

/-- A state in a round. -/
def inRound (t : Fin 80) (r : Regs) (x : Word) : State :=
  { State.reset with
    phase := .rnd, t := t, a := r.a, b := r.b, c := r.c, d := r.d, e := r.e
    w := (Vector.replicate 80 0).set t.val x }

/-- The operands of V33. -/
def wrapping (t : Fin 80) : State :=
  inRound t ⟨0xFFFFFFFF, 0xAAAAAAAA, 0xCCCCCCCC, 0xF0F0F0F0, 0xFFFFFFFF⟩ 0xFFFFFFFF

/-! ## Host writes -/

/-- V52: the largest accepted length starts a run. -/
theorem test_start_accepts :
    after (.start 1) { idleWith 0x1FFFFFFFFFFFFFFF with err := true, t := 5, bi := 3 } (fun u =>
      u.phase == .ldblk && u.t == 0 && u.bi == 0 && !u.err && statusWord u == 1 &&
        u.h == #v[0x67452301, 0xEFCDAB89, 0x98BADCFE, 0x10325476, 0xC3D2E1F0]) = true := by decide

/-- V52 and V54: one byte more raises LengthOverflow and invalidates an old digest. -/
theorem test_start_overflows :
    after (.start 0xFFFFFFFF) { finished with len := 0x2000000000000000 } (fun u =>
      u.phase == .idle && statusWord u == 4 && u.len == 0x2000000000000000) = true := by decide

/-- V55: a START while busy changes nothing. -/
theorem test_start_busy :
    after (.start 1) (inPhase .wxp 24) (fun u => decide (u = inPhase .wxp 24)) = true := by decide

theorem test_ctrlnop : after (.ctrlnop 0xFFFFFFFE) finished (fun u => decide (u = finished)) = true := by decide

/-- V51: the other half is untouched. -/
theorem test_wrlenlo :
    after (.wrlenlo 0xFFFFFFFF) (idleWith 0x0000000100000040) (fun u => u.len == 0x00000001FFFFFFFF) = true := by
  decide

theorem test_wrlenlo_busy :
    after (.wrlenlo 0) { inPhase .wxp 24 with len := 3 } (fun u => u.len == 3) = true := by decide

/-- V51. -/
theorem test_wrlenhi :
    after (.wrlenhi 1) (idleWith 0x40) (fun u => u.len == 0x0000000100000040 && statusWord u == 0) = true := by
  decide

theorem test_wrlenhi_busy :
    after (.wrlenhi 0x20000000) { inPhase .wxp 24 with len := 3 } (fun u => u.len == 3) = true := by decide

/-- V56. -/
theorem test_writes_without_effect :
    ∀ i ∈ [Instr.wrstatus 0, .wrdig03 4 0, .wrdig4 0, .wrrsv9 0xFFFFFFFF, .wrrsv10to11 11 1, .wrrsv12to15 15 1],
      after i finished (fun u => decide (u = finished)) = true := by decide

/-! ## Host reads -/

/-- V50. -/
theorem test_reads_after_reset :
    ∀ i ∈ [Instr.rdctrl, .rdstatus, .rdlenlo, .rdlenhi, .rdrsv9, .rdrsv10to11 10, .rdrsv12to15 15],
      after i State.reset (fun u => u.rdValue == some 0) = true := by decide

/-- V55 and V56: the three flags read as 1, 2 and 4. -/
theorem test_rdstatus :
    after .rdstatus (inPhase .wxp 24) (fun u => u.rdValue == some 1) = true ∧
    after .rdstatus finished (fun u => u.rdValue == some 2) = true ∧
    after .rdstatus { State.reset with err := true } (fun u => u.rdValue == some 4) = true := by decide

/-- V51. -/
theorem test_rdlen :
    after .rdlenlo (idleWith 0x0000000100000040) (fun u => u.rdValue == some 0x40) = true ∧
    after .rdlenhi (idleWith 0x0000000100000040) (fun u => u.rdValue == some 1) = true := by decide

/-- V35. -/
theorem test_rddig :
    after .rddig0 finished (fun u => u.rdValue == some 0xDA39A3EE) = true ∧
    after .rddig1 finished (fun u => u.rdValue == some 0x5E6B4B0D) = true ∧
    after .rddig2 finished (fun u => u.rdValue == some 0x3255BFEF) = true ∧
    after .rddig3 finished (fun u => u.rdValue == some 0x95601890) = true ∧
    after .rddig4 finished (fun u => u.rdValue == some 0xAFD80709) = true := by decide

/-- With DONE 0 the read completes all the same (R102): no value is expected of it. -/
theorem test_rddig_unspecified : after .rddig2 State.reset (fun u => u.rdValue.isSome && u.phase == .idle) = true := by
  decide

/-! ## Micro-operations -/

theorem test_idle : after .idle finished (fun u => decide (u = finished)) = true := by decide

/-- V13: the padded empty message. -/
theorem test_ldblk_empty :
    after .ldblk (inPhase .ldblk 0) (fun u => u.phase == .wld && u.blk[0] == 0x80 && u.blk.toList.tail.all (· == 0)) =
      true := by decide

/-- V15: 56 bytes, the second block holds the length alone. -/
theorem test_ldblk_second :
    after .ldblk { inPhase .ldblk 0 with len := 56, bi := 1, msg := (List.range 56).map (fun j => (j, 0x61)) }
      (fun u => (u.blk.toList.take 62).all (· == 0) && u.blk[62] == 0x01 && u.blk[63] == 0xC0) = true := by decide

/-- V21: the first byte is the most significant; words 16 to 79 are left alone. -/
theorem test_wld :
    after .wld { inPhase .wld 0 with
        blk := (((Vector.replicate 64 0).set 0 1).set 1 2).set 2 3 |>.set 3 4 |>.set 62 2, w := Vector.replicate 80 7 }
      (fun u => u.w[0] == 0x01020304 && u.w[15] == 0x00000200 && u.w[16] == 7 && u.t == 16 && u.phase == .wxp) =
      true := by decide

/-- V20: bit 31 re-enters at bit 0, and T counts up. -/
theorem test_wxp_rotates :
    after .wxp { inPhase .wxp 78 with w := (((Vector.replicate 80 0).set 75 0x80000000).set 62 0x40000000).set 64 1 }
      (fun u => u.w[78] == 0x80000003 && u.t == 79 && u.phase == .wxp) = true := by decide

/-- V20: after the last word T returns to 0. -/
theorem test_wxp_last :
    after .wxp { inPhase .wxp 79 with w := (Vector.replicate 80 0).set 71 0x7FFFFFFF }
      (fun u => u.w[79] == 0xFFFFFFFE && u.t == 0 && u.phase == .winit) = true := by decide

/-- V31. -/
theorem test_winit :
    after .winit { inPhase .winit 0 with h := iv }
      (fun u => decide (regsOf u = ⟨0x67452301, 0xEFCDAB89, 0x98BADCFE, 0x10325476, 0xC3D2E1F0⟩) && u.t == 0 &&
        u.phase == .rnd) = true := by decide

/-- V23. -/
theorem test_rnd0 :
    after .rnd0 (inRound 0 ⟨0x67452301, 0xEFCDAB89, 0x98BADCFE, 0x10325476, 0xC3D2E1F0⟩ 0x80000000)
      (fun u => decide (regsOf u = ⟨0x1FB498B3, 0x67452301, 0x7BF36AE2, 0x98BADCFE, 0x10325476⟩) && u.t == 1 &&
        u.phase == .rnd) = true := by decide

/-- V33. -/
theorem test_rnd0_wraps :
    after .rnd0 (wrapping 5)
      (fun u => decide (regsOf u = ⟨0x335B526E, 0xFFFFFFFF, 0xAAAAAAAA, 0xCCCCCCCC, 0xF0F0F0F0⟩) && u.t == 6) =
      true := by decide

/-- V25. -/
theorem test_rnd1 :
    after .rnd1 (inRound 20 ⟨0xE758E8DA, 0x0B3088DD, 0x8A2A5483, 0xC1AFE45C, 0xF63F5951⟩ 0)
      (fun u => decide (regsOf u = ⟨0x90EB9850, 0xE758E8DA, 0x42CC2237, 0x8A2A5483, 0xC1AFE45C⟩) && u.t == 21) =
      true := by decide

/-- V34. -/
theorem test_rnd1_wraps : after .rnd1 (wrapping 25) (fun u => u.a == 0x05708234) = true := by decide

/-- V28. -/
theorem test_rnd2 :
    after .rnd2 (inRound 59 ⟨0x982BCBCA, 0xE1AFAB22, 0xC5A3382E, 0xAF9292FA, 0x2164303A⟩ 0x00000880)
      (fun u => decide (regsOf u = ⟨0x9B9D2913, 0x982BCBCA, 0xB86BEAC8, 0xC5A3382E, 0xAF9292FA⟩) && u.t == 60) =
      true := by decide

/-- V34. -/
theorem test_rnd2_wraps : after .rnd2 (wrapping 45) (fun u => u.a == 0x7804A5C1 && u.c == 0xAAAAAAAA) = true := by
  decide

/-- V30. -/
theorem test_rnd3 :
    after .rnd3 (inRound 79 ⟨0x6E9D9F84, 0x666B8BC6, 0x852DC41A, 0xEC052519, 0xC57A6345⟩ 0x00200080)
      (fun u => decide (regsOf u = ⟨0x72F480ED, 0x6E9D9F84, 0x999AE2F1, 0x852DC41A, 0xEC052519⟩) && u.t == 0 &&
        u.phase == .hacc) = true := by decide

/-- V34. -/
theorem test_rnd3_wraps : after .rnd3 (wrapping 65) (fun u => u.a == 0x60F95869) = true := by decide

/-- V31: the last block, with carries dropped. -/
theorem test_hacc_last :
    after .hacc { inPhase .hacc 0 with h := iv, a := 0x72F480ED, b := 0x6E9D9F84, c := 0x999AE2F1, d := 0x852DC41A, e := 0xEC052519 }
      (fun u => u.h == #v[0xDA39A3EE, 0x5E6B4B0D, 0x3255BFEF, 0x95601890, 0xAFD80709] && u.bi == 1 &&
        u.phase == .dser) = true := by decide

/-- V32: the first of the two blocks of 64 bytes. -/
theorem test_hacc_more :
    after .hacc { inPhase .hacc 0 with len := 64, h := #v[0xFFFFFFFF, 0x80000000, 0, 5, 6], a := 1, b := 0x80000000 }
      (fun u => u.h == #v[0, 0, 0, 5, 6] && u.bi == 1 && u.phase == .ldblk && u.t == 0) = true := by decide

/-- V35: leading zero bytes are kept. -/
theorem test_dser :
    after .dser { inPhase .dser 0 with h := #v[0, 1, 0x80000000, 0xFFFFFFFF, 0x01020304] }
      (fun u => u.digest == #v[0, 0, 0, 0, 0, 0, 0, 1, 0x80, 0, 0, 0, 0xff, 0xff, 0xff, 0xff, 1, 2, 3, 4] &&
        statusWord u == 2) = true := by decide

/-- A run whose message was changed ends all the same (U6): no digest is expected of it. -/
theorem test_dser_changed :
    after .dser { inPhase .dser 0 with msgChanged := true } (fun u => statusWord u == 2) = true := by decide

/-! ## The step -/

/-- V58: reset in the middle of a run. -/
theorem test_reset_event :
    afterStep { inPhase .rnd 33 with len := 3, sched := [.reset], msg := [(0, 0x61)] }
      (fun u => u.phase == .idle && u.t == 0 && u.len == 0 && statusWord u == 0 && decide (u.msg = [(0, 0x61)])) =
      true := by decide

/-- A byte written by the host, and a zero that takes it away again. -/
theorem test_host_message :
    afterStep { State.reset with sched := [.writeMsg 5 9], msg := [(2, 1), (7, 1)] }
      (fun u => decide (u.msg = [(2, 1), (5, 9), (7, 1)])) = true ∧
    afterStep { State.reset with sched := [.writeMsg 5 0], msg := [(2, 1), (5, 9)] }
      (fun u => decide (u.msg = [(2, 1)])) = true := by decide

/-- With no turn left the engine moves. -/
theorem test_step_engine : afterStep (inPhase .ldblk 0) (fun u => u.phase == .wld) = true := by decide

/-- A placed word is executed by the next step, right after reset. -/
theorem test_fetch_word :
    afterStep (State.reset.withFetchWord 40 0x1000000001) (fun u => u.phase == .ldblk) = true ∧
    afterStep (State.reset.withFetchWord 8 0x17) (fun u => u.phase == .rnd && u.t == 61) = true ∧
    afterStep (State.reset.withFetchWord 8 0x0C) (fun u => u.phase == .wxp && u.t == 17) = true := by decide

/-- WXP is placed at an index that R121 admits, whatever T was, and the group of the selector is kept. -/
theorem test_fetch_wxp :
    (∀ t : Fin 80, 16 ≤ (indexIn .wxp 0 t).val ∧ group (indexIn .wxp 0 t) = 0) ∧
    afterStep ((inPhase .idle 20).withFetchWord 8 0x0C) (fun u => u.t == 17 && u.w[0] == 0) = true ∧
    afterStep ((inPhase .idle 19).withFetchWord 8 0x0C) (fun u => u.t == 20) = true := by decide

/-! ## Witnesses: a state and operands that meet the hypotheses of each statement, clause by clause -/

/-- A state right after an accepted START of a message of `l` bytes. -/
def started (l : BitVec 64) : State := acceptStart (idleWith l)

/-- An idle state with a turn of the host next. -/
def hostNext (w : BitVec 37) (s : State) : State := { s with sched := [.host w] }

theorem witness_DecodeEncodeRoundTrip :
    (Instr.start 0xFFFFFFFF).WellFormed ∧ (Instr.ctrlnop 0xFFFFFFFE).WellFormed ∧
    (Instr.wrdig03 4 0).WellFormed ∧ (Instr.wrdig03 7 0).WellFormed ∧ (Instr.wrrsv10to11 10 0).WellFormed ∧
    (Instr.rdrsv10to11 11).WellFormed ∧ (Instr.rdrsv12to15 12).WellFormed ∧ (Instr.wrrsv12to15 15 0).WellFormed ∧
    Instr.dser.WellFormed := by decide

theorem witness_HostRowsSelectTheOperation :
    (⟨"WRDIG0_3", 0x1400000000, 0x1C00000000⟩ : Row 37) ∈ hawTable ∧
    (⟨"WRDIG0_3", 0x1400000000, 0x1C00000000⟩ : Row 37).hits 0x1700000000 = true := by decide

theorem witness_SelectorRowsSelectTheMicroOperation :
    (⟨"WXP", 0x0C, 0x1C⟩ : Row 5) ∈ selTable ∧ (⟨"WXP", 0x0C, 0x1C⟩ : Row 5).hits 0x0F = true := by decide

theorem witness_SelectorIsPhaseAndGroup :
    (4 : BitVec 3) ≠ 5 ∧ (6 : BitVec 3) ≠ 5 ∧
    decodeSel ((5 : BitVec 3) ++ (3 : BitVec 2)) = decodeSel ((5 : BitVec 3) ++ (3 : BitVec 2)) := by decide

theorem witness_StepExecutesTheDecodedInstruction :
    (hostNext 0x0100000000 State.reset).sched = [.host 0x0100000000] ∧ State.reset.sched = [] ∧
    ({ State.reset with sched := [.engine, .reset] } : State).sched = .engine :: [.reset] ∧
    ({ State.reset with sched := [.reset] } : State).sched = .reset :: [] ∧
    ({ State.reset with sched := [.writeMsg 0 1] } : State).sched = .writeMsg 0 1 :: [] := by decide

theorem witness_PlacedWordIsExecutedNext :
    decodeTableWord 40 0x1FFFFFFFFF = some (.wrrsv12to15 15 0xFFFFFFFF) ∧ decodeTableWord 8 0x1C = some .dser ∧
    decodeTableWord 8 0 = some .idle := by decide

theorem witness_StartIsIgnoredRefusedOrAccepted :
    (0x10FFFFFFFF : BitVec 37) &&& 0x1F00000001 = 0x1000000001 ∧
    (inPhase .dser 0).phase ≠ .idle ∧
    (idleWith 0x2000000000000000).phase = .idle ∧ 2 ^ 61 - 1 < (idleWith 0x2000000000000000).len.toNat ∧
    (idleWith 0x1FFFFFFFFFFFFFFF).len.toNat ≤ 2 ^ 61 - 1 := by decide

theorem witness_LengthOverflowIsRaisedByStartAlone :
    (idleWith 0x2000000000000000).phase = .idle ∧ maxLen < (idleWith 0x2000000000000000).len.toNat ∧
    ∃ u, exec (.start 1) (idleWith 0x2000000000000000) = .next u ∧
      (idleWith 0x2000000000000000).err = false ∧ u.err = true := by
  refine ⟨by decide, by decide, _, rfl, by decide, by decide⟩

theorem witness_ErrStaysUntilAcceptedStartOrReset :
    (∃ u, step (hostNext 0x1000000001 { State.reset with err := true }) = .next u ∧ u.err = false) ∧
    (∃ u, step { State.reset with err := true, sched := [.reset] } = .next u ∧ u.err = false) ∧
    (∃ u, exec (.start 1) (idleWith 0xFFFFFFFFFFFFFFFF) = .next u) :=
  ⟨⟨_, rfl, by decide⟩, ⟨_, rfl, by decide⟩, ⟨_, rfl⟩⟩

/-- For CtrlnopHasNoEffect, WrlenloWritesTheLowHalf, WrlenhiWritesTheHighHalf, CtrlReadsZeroAndStartsByBitZero,
StatusReadsTheFlags and LengthReadsReturnItsHalves: words of the rows. -/
theorem witness_host_words :
    (0x1000000002 : BitVec 37) &&& 0x1F00000001 = 0x1000000000 ∧
    (0x12FFFFFFFF : BitVec 37) &&& 0x1F00000000 = 0x1200000000 ∧
    (0x1300000001 : BitVec 37) &&& 0x1F00000000 = 0x1300000000 ∧
    (0x00FFFFFFFF : BitVec 37) &&& 0x1F00000000 = 0x0000000000 ∧
    (0x01DEADBEEF : BitVec 37) &&& 0x1F00000000 = 0x0100000000 ∧
    (0x0200000000 : BitVec 37) &&& 0x1F00000000 = 0x0200000000 ∧
    (0x0300000000 : BitVec 37) &&& 0x1F00000000 = 0x0300000000 := by decide

/-- For WrlenloWritesTheLowHalf and WrlenhiWritesTheHighHalf: both of their clauses. -/
theorem witness_WrlenWritesItsHalf : (inPhase .hacc 0).phase ≠ .idle ∧ finished.phase = .idle := by decide

theorem witness_AccessesWithoutEffect :
    hawWe 0x1100000000 = true ∧ hawReg 0x1100000000 = 1 ∧ hawWe 0x1400000000 = true ∧
    4 ≤ (hawReg 0x1400000000).toNat ∧ 4 ≤ (hawReg 0x1F00000000).toNat ∧ hawWe 0x0900000000 = false ∧
    9 ≤ (hawReg 0x0900000000).toNat ∧ 9 ≤ (hawReg 0x0FFFFFFFFF).toNat := by decide

theorem witness_CtrlReadsZeroAndStartsByBitZero :
    hawWe 0x10FFFFFFFF = true ∧ hawReg 0x10FFFFFFFF = 0 ∧ (hawData 0x10FFFFFFFF).getLsbD 0 = true ∧
    hawWe 0x10FFFFFFFE = true ∧ hawReg 0x10FFFFFFFE = 0 ∧ (hawData 0x10FFFFFFFE).getLsbD 0 = false := by decide

theorem witness_StatusReadsTheFlags :
    FlagsExclusive State.reset ∧ FlagsExclusive (inPhase .rnd 79) ∧ FlagsExclusive finished ∧
    FlagsExclusive { State.reset with err := true } := by decide

theorem witness_DigestReadsReturnWordsOrAnyValue :
    (0x0400000000 : BitVec 37) &&& 0x1F00000000 = 0x0400000000 ∧
    (0x0500000000 : BitVec 37) &&& 0x1F00000000 = 0x0500000000 ∧
    (0x0600000000 : BitVec 37) &&& 0x1F00000000 = 0x0600000000 ∧
    (0x0700000000 : BitVec 37) &&& 0x1F00000000 = 0x0700000000 ∧
    (0x0800000001 : BitVec 37) &&& 0x1F00000000 = 0x0800000000 ∧
    finished.done = true ∧ State.reset.done = false := by decide

theorem witness_ReadsAndBusyHostOperationsChangeNothing :
    Instr.rddig4.isRead = true ∧ busy (inPhase .ldblk 0) = true := by decide

/-- For the statements of the micro-operations: a selector of each row, its ignored bits set. -/
theorem witness_micro_words :
    (0x03 : BitVec 5) &&& 0x1C = 0x00 ∧ (0x07 : BitVec 5) &&& 0x1C = 0x04 ∧ (0x0B : BitVec 5) &&& 0x1C = 0x08 ∧
    (0x0F : BitVec 5) &&& 0x1C = 0x0C ∧ (0x13 : BitVec 5) &&& 0x1C = 0x10 ∧ (0x1B : BitVec 5) &&& 0x1C = 0x18 ∧
    (0x1F : BitVec 5) &&& 0x1C = 0x1C := by decide

theorem witness_IdleWaitsForAnAcceptedStart :
    ∃ u, State.reset.phase = .idle ∧ step (hostNext 0x1000000001 State.reset) = .next u ∧ u.phase ≠ .idle :=
  ⟨_, rfl, rfl, by decide⟩

theorem witness_LdblkLoadsThePaddedBlock :
    (inPhase .ldblk 0).phase = .ldblk ∧ (inPhase .ldblk 0).len.toNat ≤ maxLen ∧
    (inPhase .ldblk 0).bi.toNat < nblk (inPhase .ldblk 0).len.toNat ∧
    (0x1FFFFFFFFFFFFFFF : BitVec 64).toNat ≤ maxLen ∧
    (0x0080000000000000 : BitVec 64).toNat < nblk (0x1FFFFFFFFFFFFFFF : BitVec 64).toNat := by decide

/-- Two message spaces that agree on the one offset the load reads. -/
theorem witness_LdblkLoadsThePaddedBlock_reads :
    ∃ u, (∀ j ∈ blockReads 1 0, Memory.read [(0, 5), (1, 7)] j = Memory.read [(0, 5)] j) ∧
      exec .ldblk { inPhase .ldblk 0 with len := 1, msg := [(0, 5)] } = .next u :=
  ⟨_, by decide, rfl⟩

/-- The first block beyond the space, of a length that no run has. -/
theorem witness_OnlyLdblkBeyondTheSpaceStops :
    2 ^ 61 ≤ (2 ^ 61 : Nat) ∧ 2 ^ 61 < (0x2000000000000001 : BitVec 64).toNat ∧
    2 ^ 61 / 64 = (0x0080000000000000 : BitVec 64).toNat ∧
    exec .ldblk { inPhase .ldblk 0 with len := 0x2000000000000001, bi := 0x0080000000000000 } =
      .fault (.noSuchOffset (2 ^ 61)) :=
  ⟨by decide, by decide, by decide, rfl⟩

/-- For WldLoadsTheBlockWords, WxpExpandsOneWord, WinitLoadsTheWorkingRegisters and RoundsShiftTheWorkingRegisters. -/
theorem witness_micro_phases :
    (inPhase .wld 0).phase = .wld ∧ (inPhase .wxp 16).phase = .wxp ∧ 16 ≤ (inPhase .wxp 16).t.val ∧
    (inPhase .wxp 78).t.val < 79 ∧ (inPhase .wxp 79).t.val = 79 ∧ (inPhase .winit 0).phase = .winit ∧
    (inPhase .rnd 0).phase = .rnd ∧ (inPhase .rnd 78).t.val < 79 ∧ (inPhase .rnd 79).t.val = 79 := by decide

theorem witness_WldLoadsTheBlockWords : 16 ≤ (16 : Fin 80).val ∧ 16 ≤ (79 : Fin 80).val := by decide

theorem witness_HaccAccumulatesAndChoosesTheNextPhase :
    (inPhase .hacc 0).phase = .hacc ∧ (0 : BitVec 64).toNat < nblk 0 ∧ (0 : BitVec 64).toNat + 1 = nblk 55 ∧
    (0 : BitVec 64).toNat + 1 ≠ nblk 56 ∧ (1 : BitVec 64).toNat + 1 = nblk 119 := by decide

theorem witness_DserSerializesTheDigest :
    (inPhase .dser 0).phase = .dser ∧ (inPhase .dser 0).msgChanged = false := by decide

theorem witness_ChangedMessageLeavesTheDigestFree :
    ({ inPhase .dser 0 with msgChanged := true } : State).msgChanged = true := by decide

theorem witness_BlockCountIsTheSmallest :
    0 + 9 ≤ 64 * 1 ∧ 55 + 9 ≤ 64 * 1 ∧ 55 ≤ 55 ∧ 56 ≤ 56 ∧ 119 ≤ 119 ∧ 120 ≤ 120 ∧ 183 ≤ 183 := by decide

theorem witness_PaddedMessageProperties :
    0 ≤ maxLen ∧ maxLen ≤ maxLen ∧ 0 < 1 ∧ 1 < 2 ∧ 2 < 64 * nblk 1 - 8 := by decide

theorem witness_WordOperationsRotateAndWrap : 0 < 1 ∧ 31 < 32 ∧ 0 < 31 := by decide

theorem witness_BigEndianAssemblyAndItsInverse : 0 < 4 ∧ 7 < 8 := by decide

/-- The instructions that each clause of the statement admits: one that is none of the named ones. -/
theorem witness_OnlyTheNamedInstructionsWrite :
    (∃ u, exec .ldblk (inPhase .ldblk 0) = .next u) ∧ (∃ u, exec .hacc (inPhase .hacc 0) = .next u) ∧
    (∃ u, exec (.wrlenlo 1) State.reset = .next u) ∧ Instr.rdstatus.agent = .host ∧
    (∀ v, Instr.ldblk ≠ .start v) ∧ (∀ v, Instr.hacc ≠ .wrlenlo v) ∧ (∀ v, Instr.hacc ≠ .wrlenhi v) :=
  ⟨⟨_, rfl⟩, ⟨_, rfl⟩, ⟨_, rfl⟩, rfl, nofun, nofun, nofun⟩

theorem witness_OnlyTheHostWritesTheMessage :
    (∃ u, step (started 3) = .next u ∧ ∀ j x, nextTurn (started 3) ≠ .writeMsg j x) ∧
    (∃ u, ({ State.reset with sched := [.writeMsg 0x1FFFFFFFFFFFFFFF 9] } : State).msg.wf = true ∧
      nextTurn { State.reset with sched := [.writeMsg 0x1FFFFFFFFFFFFFFF 9] } = .writeMsg 0x1FFFFFFFFFFFFFFF 9 ∧
      step { State.reset with sched := [.writeMsg 0x1FFFFFFFFFFFFFFF 9] } = .next u) :=
  ⟨⟨_, rfl, nofun⟩, ⟨_, rfl, rfl, rfl⟩⟩

theorem witness_LengthIsFixedDuringARun :
    ∃ u, busy (hostNext 0x1200000000 (inPhase .wxp 24)) = true ∧
      nextTurn (hostNext 0x1200000000 (inPhase .wxp 24)) ≠ .reset ∧
      step (hostNext 0x1200000000 (inPhase .wxp 24)) = .next u :=
  ⟨_, by decide, nofun, rfl⟩

theorem witness_DigestStaysWhileDone :
    ∃ u, FlagsExclusive (hostNext 0x1000000001 finished) ∧ (hostNext 0x1000000001 finished).done = true ∧
      nextTurn (hostNext 0x1000000001 finished) ≠ .reset ∧ step (hostNext 0x1000000001 finished) = .next u ∧
      u.done = false :=
  ⟨_, by decide, rfl, nofun, rfl, by decide⟩

theorem witness_DigestReadsReturnTheFinalHash :
    ∃ u, (inPhase .dser 0).phase = .dser ∧ (inPhase .dser 0).msgChanged = false ∧
      exec .dser (inPhase .dser 0) = .next u :=
  ⟨_, rfl, rfl, rfl⟩

theorem witness_ResetEventEndsARun : nextTurn { inPhase .rnd 33 with sched := [.reset] } = .reset := rfl

/-- Each phase, at the ends of its range of T and of BI. -/
theorem witness_SequencerTransitions :
    (idleWith 0x1FFFFFFFFFFFFFFF).phase = .idle ∧ (idleWith 0x1FFFFFFFFFFFFFFF).len.toNat ≤ maxLen ∧
    (∀ s ∈ [inPhase .ldblk 0, inPhase .wld 0, inPhase .wxp 16, inPhase .wxp 78, inPhase .wxp 79, inPhase .winit 0,
        inPhase .rnd 0, inPhase .rnd 78, inPhase .rnd 79, { inPhase .hacc 0 with len := 64 }, inPhase .hacc 0,
        { inPhase .dser 0 with bi := 1 }],
      SequencerLegal s ∧ s.phase ≠ .idle ∧ nextTurn s = .engine ∧ afterStep s (fun _ => true) = true) := by decide

theorem witness_AtMostOneFlagIsSet :
    ∃ u, FlagsExclusive { inPhase .dser 0 with bi := 1 } ∧ step { inPhase .dser 0 with bi := 1 } = .next u :=
  ⟨_, by decide, rfl⟩

theorem witness_StepKeepsTheInvariant :
    (∃ u, EngineInv (started 3) ∧ step (started 3) = .next u) ∧
    (∃ u, EngineInv { inPhase .hacc 0 with len := 0x1FFFFFFFFFFFFFFF, bi := 0x0080000000000000 } ∧
      step { inPhase .hacc 0 with len := 0x1FFFFFFFFFFFFFFF, bi := 0x0080000000000000 } = .next u) :=
  ⟨⟨_, by decide, rfl⟩, ⟨_, by decide, rfl⟩⟩

theorem witness_StepsCompleteUnderTheInvariant :
    EngineInv State.reset ∧ EngineInv (started 0x1FFFFFFFFFFFFFFF) :=
  ⟨by decide, by decide⟩

theorem witness_StepKeepsTheMessageCanonical :
    ∃ u, Memory.wf [(2, 1), (7, 1)] = true ∧
      step { State.reset with msg := [(2, 1), (7, 1)], sched := [.writeMsg 7 0] } = .next u :=
  ⟨_, by decide, rfl⟩

theorem witness_RunProgressesByOneMicroOperation :
    (∃ u, SequencerLegal (started 64) ∧ (started 64).phase ≠ .idle ∧ nextTurn (started 64) = .engine ∧
      step (started 64) = .next u) ∧
    (∃ u, SequencerLegal (hostNext 0x1000000001 (started 64)) ∧ (hostNext 0x1000000001 (started 64)).phase ≠ .idle ∧
      nextTurn (hostNext 0x1000000001 (started 64)) ≠ .engine ∧
      nextTurn (hostNext 0x1000000001 (started 64)) ≠ .reset ∧
      step (hostNext 0x1000000001 (started 64)) = .next u) :=
  ⟨⟨_, by decide, by decide, rfl, rfl⟩, ⟨_, by decide, by decide, nofun, nofun, rfl⟩⟩

/-- The state before the DSER of the empty message. -/
def lastState (m : Nat → Byte) : State := { inPhase .dser 0 with bi := 1, h := hashBlocks m 0 1 }

theorem lastLegal (m : Nat → Byte) : SequencerLegal (lastState m) :=
  fun _ => ⟨(by decide : (0 : BitVec 64).toNat ≤ maxLen),
    (by decide : if Phase.dser = .dser then (1 : BitVec 64).toNat = nblk (0 : BitVec 64).toNat
      else (1 : BitVec 64).toNat < nblk (0 : BitVec 64).toNat), nofun, fun _ _ => rfl⟩

theorem lastOp (m : Nat → Byte) : microOp (lastState m) = .dser :=
  (by decide : decodeSel ((7 : BitVec 3) ++ group 0) = .dser)

/-- A run's first state, and the last one before its digest. -/
theorem witness_RunComputesTheContractStepByStep (m : Nat → Byte) :
    (∃ u, (started 0).msg.wf = true ∧ RunComputes m 0 (started 0) ∧ harmless 0 (nextTurn (started 0)) = true ∧
      step (started 0) = .next u) ∧
    RunComputes m 0 (lastState m) ∧ step (lastState m) = .next (finishRun (lastState m)) :=
  ⟨⟨_, by decide, ⟨rfl, nofun, rfl, rfl, rfl, by decide, rfl, trivial⟩, rfl, rfl⟩,
    ⟨rfl, nofun, rfl, rfl, rfl, lastLegal m, rfl, trivial⟩,
    (step_engine rfl).trans (by rw [lastOp]; rfl)⟩

/-- A schedule that keeps R60, of every kind of turn that does. -/
theorem witness_AcceptedStartComputesTheDigest :
    (idleWith 3).msg.wf = true ∧ (idleWith 3).phase = .idle ∧ (idleWith 3).len.toNat ≤ maxLen ∧
    (∀ x ∈ [Turn.engine, .host 0x1000000001, .writeMsg 3 7, .engine], harmless (idleWith 3).len.toNat x = true) ∧
    [Turn.engine, .host 0x1000000001, .writeMsg 3 7, .engine].count .engine < runLength (idleWith 3).len.toNat := by
  decide

theorem witness_RunLengthAndTermination :
    RunStarts (started 55) ∧ (started 55).sched = [] ∧ RunStarts (started 119) ∧ 148 < 148 * nblk 0 + 1 ∧
    (started 55).len.toNat ≤ 55 ∧ 56 ≤ (started 56).len.toNat ∧ (started 119).len.toNat ≤ 119 := by decide

/-- A state that differs from `started 1` in all but the message and its length. -/
def otherRun : State :=
  { started 1 with
    a := 5, digest := finished.digest, msg := [(1, 9)], sched := [.engine, .host 0x1200000000, .writeMsg 1 8] }

theorem witness_RunsAreIndependent :
    RunStarts (started 1) ∧ RunStarts otherRun ∧ (started 1).msg.wf = true ∧ otherRun.msg.wf = true ∧
    (started 1).len = otherRun.len ∧
    (∀ j, j < (started 1).len.toNat → (started 1).msg.read j = otherRun.msg.read j) ∧
    (∀ x ∈ otherRun.sched, harmless otherRun.len.toNat x = true) ∧
    (started 1).sched.count .engine < runLength (started 1).len.toNat ∧
    otherRun.sched.count .engine < runLength otherRun.len.toNat := by decide

theorem witness_EngineInstancesAreIndependent :
    (System.reset 2).engines[1]? = some { State.reset with stream := 1 } ∧
    (∃ u, step { State.reset with stream := 1 } = .next u) ∧ (System.reset 2).StreamsApart ∧
    (∃ z, System.stepAt 1 (System.reset 2) = .next z) ∧ 0 ≠ 1 :=
  ⟨rfl, ⟨_, rfl⟩, streamsApart_reset 2, ⟨_, rfl⟩, nofun⟩

end Sys2Proof.Tests
end

section
/-! PROOFS. Word and byte operations (00_scope.md R10, R11): `rotl32` is the library's rotation, an append of
bit vectors is a positional sum, and a 32-bit word is the sum of its four bytes. -/

namespace Sys2Proof.Machine

/-! ## Words (R10) -/

theorem rotl32_eq_rotateLeft (x : Word) {n : Nat} (hn : n < 32) : rotl32 x n = x.rotateLeft n :=
  (BitVec.rotateLeft_eq_rotateLeftAux_of_lt hn).symm

/-- The bits below `n` are the ones shifted out at the top; every other bit moves up by `n`. -/
theorem getLsbD_rotl32 (x : Word) {n i : Nat} (hn : n < 32) (hi : i < 32) :
    (rotl32 x n).getLsbD i = x.getLsbD ((i + 32 - n) % 32) := by
  rw [rotl32_eq_rotateLeft x hn, BitVec.getLsbD_rotateLeft_of_le hn]
  by_cases hin : i < n
  · have reenters : (i + 32 - n) % 32 = 32 - n + i := by omega
    simp [hin, reenters]
  · have moves : (i + 32 - n) % 32 = i - n := by omega
    simp [hin, hi, moves]

/-- Settles O37: `rotl32` is the library's rotation, whose bits are known; the sum and the complement are
those of `BitVec`. -/
theorem wordOperationsRotateAndWrap : Obligations.WordOperationsRotateAndWrap :=
  ⟨fun x _ _ hn _ hi => getLsbD_rotl32 x hn hi, BitVec.toNat_add, fun x => (BitVec.allOnes_sub_eq_not x).symm⟩

/-! ## Bytes (R11) -/

theorem toNat_append_eq_mul_add {m n : Nat} (x : BitVec m) (y : BitVec n) :
    (x ++ y).toNat = x.toNat * 2 ^ n + y.toNat := by
  rw [BitVec.toNat_append, ← Nat.shiftLeft_add_eq_or_of_lt y.isLt, Nat.shiftLeft_eq]

theorem be32_toNat (b0 b1 b2 b3 : Byte) :
    (be32 b0 b1 b2 b3).toNat = b0.toNat * 2 ^ 24 + b1.toNat * 2 ^ 16 + b2.toNat * 2 ^ 8 + b3.toNat := by
  simp only [be32, toNat_append_eq_mul_add]
  omega

/-- The four bytes of a word, most significant first, are its digits to the base 256. -/
theorem be32_byteBe (v : Word) :
    be32 (byteBe v.toNat 4 0) (byteBe v.toNat 4 1) (byteBe v.toNat 4 2) (byteBe v.toNat 4 3) = v := by
  apply BitVec.eq_of_toNat_eq
  have inRange : v.toNat < 2 ^ 32 := v.isLt
  simp only [be32_toNat, byteBe_toNat]
  omega

/-- Settles O38: `be32` by its positional sum, `byteBe` by its definition, the inverse by the base-256 digits. -/
theorem bigEndianAssemblyAndItsInverse : Obligations.BigEndianAssemblyAndItsInverse :=
  ⟨be32_toNat, fun v n k _ => byteBe_toNat v n k, be32_byteBe⟩

end Sys2Proof.Machine
end

section
/-! PROOFS. What the engine and the host do to a state, said once: the micro-operation of each phase, one engine
step as a function of PHASE, and what each agent's instructions leave alone (10_state.md, column "written by"). -/

namespace Sys2Proof.Machine

/-! ## The micro-operation of a phase (R27) -/

/-- The round kind that the sequencer selects at index `t`: 20 rounds of each (R27, R104). -/
def roundOp (t : Nat) : Instr :=
  if t < 20 then .rnd0 else if t < 40 then .rnd1 else if t < 60 then .rnd2 else .rnd3

theorem decodeSel_rnd : ∀ t : Fin 80, decodeSel ((5 : BitVec 3) ++ group t) = roundOp t.val := by decide

/-- Settles O11: outside RND the group is ignored, and in RND the group of each of the 80 indices is evaluated. -/
theorem phaseSelectsTheMicroOperation : Obligations.PhaseSelectsTheMicroOperation := by
  refine ⟨by decide, fun s => ?_⟩
  cases hp : s.phase
  case rnd => rw [microOp_rnd hp, decodeSel_rnd]; rfl
  all_goals
    rw [microOp_of_ne_rnd (by simp [hp]), hp]
    rfl

/-! ## One engine step by its phase -/

/-- The state after the engine's step, by PHASE (R104, R105). -/
def engineNext (s : State) : State :=
  match s.phase with
  | .idle => s
  | .ldblk => loadBlock s
  | .wld => loadSchedule s
  | .wxp => advanceIndex .winit (writeExpanded s)
  | .winit => initWorking s
  | .rnd => roundStep (roundF s.t.val) (roundK s.t.val) s
  | .hacc => finishBlock s
  | .dser => finishRun s

/-- The round that the sequencer selects uses the round function and constant of the index (R131 to R136). -/
theorem exec_roundOp (s : State) :
    exec (roundOp s.t.val) s = .next (roundStep (roundF s.t.val) (roundK s.t.val) s) := by
  simp only [roundOp, roundF, roundK]
  split
  · rfl
  split
  · rfl
  split <;> rfl

/-- The micro-operation that the sequencer selects does what its phase says, but for a load that stops. -/
theorem exec_microOp (s : State) (h : s.phase = .ldblk → missingOffset s = none) :
    exec (microOp s) s = .next (engineNext s) := by
  obtain ⟨-, selected⟩ := phaseSelectsTheMicroOperation
  rw [selected]
  cases hp : s.phase
  case ldblk => simp only [exec, execLdblk, h hp, engineNext, hp]
  case rnd => simp only [engineNext, hp]; exact exec_roundOp s
  all_goals simp only [engineNext, hp]; rfl

theorem exec_microOp_next {s u : State} (h : exec (microOp s) s = .next u) : u = engineNext s := by
  have reads : s.phase = .ldblk → missingOffset s = none := by
    intro hp
    rw [microOp_of_ne_rnd (by simp [hp]), hp] at h
    change execLdblk s = .next u at h
    cases hm : missingOffset s with
    | none => rfl
    | some j => simp [execLdblk, hm] at h
  rw [exec_microOp s reads] at h
  exact (Host.Outcome.next.inj h).symm

/-- A step that completes, by its turn: `step_cases` with the engine's turn read off PHASE. -/
theorem step_agents {s u : State} (h : step s = .next u) :
    (nextTurn s = .engine ∧ u = engineNext (popTurn s)) ∨
    (∃ w, nextTurn s = .host w ∧ exec (decodeHaw w) (popTurn s) = .next u) ∨
    (nextTurn s = .reset ∧ u = resetEvent (popTurn s)) ∨
    (∃ j x, nextTurn s = .writeMsg j x ∧ u = hostWriteMsg j x (popTurn s)) := by
  rcases step_cases h with ⟨ht, he⟩ | others
  · exact .inl ⟨ht, exec_microOp_next (s := popTurn s) he⟩
  · exact .inr others

/-! ## What the instructions leave alone -/

/-- No host operation writes the working registers, the schedule, the buffers or the message space. -/
theorem exec_host_data {i : Instr} {s u : State} (hi : i.agent = .host) (h : exec i s = .next u) :
    regsOf u = regsOf s ∧ u.w = s.w ∧ u.blk = s.blk ∧ u.digest = s.digest ∧ u.msg = s.msg := by
  rcases exec_host_cases hi h with rfl | ⟨-, rfl⟩ | ⟨-, l, rfl⟩ | ⟨-, ⟨v, rfl⟩ | rfl⟩
  case inr.inl =>
    rcases processStart_cases s with ⟨-, e⟩ | ⟨-, -, e⟩ | ⟨-, -, e⟩ <;> simp [e, regsOf]
  case inr.inr.inl =>
    rcases writeLen_cases l s with ⟨-, e⟩ | ⟨-, e⟩ <;> simp [e, regsOf]
  all_goals simp [regsOf]

/-- No host operation but START writes the hash state, the sequencer state or a flag. -/
theorem exec_host_control {i : Instr} {s u : State} (hi : i.agent = .host) (hs : ∀ v, i ≠ .start v)
    (h : exec i s = .next u) :
    u.h = s.h ∧ u.bi = s.bi ∧ u.phase = s.phase ∧ u.t = s.t ∧ u.done = s.done ∧ u.err = s.err := by
  rcases exec_host_cases hi h with rfl | ⟨⟨v, rfl⟩, -⟩ | ⟨-, l, rfl⟩ | ⟨-, ⟨v, rfl⟩ | rfl⟩
  case inr.inl => exact absurd rfl (hs v)
  case inr.inr.inl => rcases writeLen_cases l s with ⟨-, e⟩ | ⟨-, e⟩ <;> simp [e]
  all_goals simp

theorem exec_host_len {i : Instr} {s u : State} (hi : i.agent = .host) (hlo : ∀ v, i ≠ .wrlenlo v)
    (hhi : ∀ v, i ≠ .wrlenhi v) (h : exec i s = .next u) : u.len = s.len := by
  rcases exec_host_cases hi h with rfl | ⟨-, rfl⟩ | ⟨⟨v, rfl⟩ | ⟨v, rfl⟩, -⟩ | ⟨-, ⟨v, rfl⟩ | rfl⟩
  case inr.inl =>
    rcases processStart_cases s with ⟨-, e⟩ | ⟨-, -, e⟩ | ⟨-, -, e⟩ <;> simp [e]
  case inr.inr.inl.inl => exact absurd rfl (hlo v)
  case inr.inr.inl.inr => exact absurd rfl (hhi v)
  all_goals simp

/-- While the engine is busy a host operation moves the host's side alone (R60, R93, R94, R96, R97). -/
theorem exec_host_busy {i : Instr} {s u : State} (hi : i.agent = .host) (hb : s.phase ≠ .idle)
    (h : exec i s = .next u) : u = { s with rdValue := u.rdValue, draws := u.draws } := by
  rcases exec_host_cases hi h with rfl | ⟨-, rfl⟩ | ⟨-, l, rfl⟩ | ⟨-, ⟨v, rfl⟩ | rfl⟩
  case inr.inl => rw [processStart_busy hb]
  case inr.inr.inl =>
    rcases writeLen_cases l s with ⟨-, e⟩ | ⟨hid, -⟩
    · rw [e]
    · exact absurd hid hb
  all_goals rfl

/-- Which micro-operation writes which data. -/
theorem exec_engine_data {i : Instr} {s u : State} (hi : i.agent = .engine) (h : exec i s = .next u) :
    (i ≠ .hacc → u.h = s.h ∧ u.bi = s.bi) ∧ (i ≠ .winit → roundOf i = none → regsOf u = regsOf s) ∧
    (i ≠ .wld → i ≠ .wxp → u.w = s.w) ∧ (i ≠ .ldblk → u.blk = s.blk) ∧ (i ≠ .dser → u.digest = s.digest) := by
  rcases exec_engine_cases hi h with ⟨rfl, rfl⟩ | ⟨rfl, rfl⟩ | ⟨rfl, rfl⟩ | ⟨rfl, rfl⟩ | ⟨rfl, rfl⟩ |
    ⟨f, k, hr, rfl⟩ | ⟨rfl, rfl⟩ | ⟨rfl, rfl⟩ <;> simp_all [regsOf]

/-- No micro-operation writes LEN, ERR or the message space, and only DSER writes DONE. -/
theorem exec_engine_control {i : Instr} {s u : State} (hi : i.agent = .engine) (h : exec i s = .next u) :
    u.len = s.len ∧ u.err = s.err ∧ u.msg = s.msg ∧ (i ≠ .dser → u.done = s.done) := by
  rcases exec_engine_cases hi h with ⟨-, rfl⟩ | ⟨-, rfl⟩ | ⟨-, rfl⟩ | ⟨-, rfl⟩ | ⟨-, rfl⟩ | ⟨f, k, -, rfl⟩ |
    ⟨-, rfl⟩ | ⟨rfl, rfl⟩ <;> simp

theorem roundOf_eq_none {i : Instr} (h0 : i ≠ .rnd0) (h1 : i ≠ .rnd1) (h2 : i ≠ .rnd2) (h3 : i ≠ .rnd3) :
    roundOf i = none := by
  unfold roundOf
  split <;> simp_all

/-- Settles O41, by the agent of the instruction: what its instructions leave alone. -/
theorem onlyTheNamedInstructionsWrite : Obligations.OnlyTheNamedInstructionsWrite := by
  intro i s u h
  cases hi : i.agent with
  | host =>
    obtain ⟨regs, w, blk, digest, msg⟩ := exec_host_data hi h
    refine ⟨fun hs _ => ?_, fun _ _ _ _ _ => regs, fun _ _ => w, fun _ => blk, fun _ => digest,
      fun hlo hhi => exec_host_len hi hlo hhi h, fun hs _ => ?_, fun hs => ?_, fun hs _ => ?_,
      msg, fun _ => by rw [msg]⟩
    all_goals obtain ⟨hash, bi, phase, t, done, err⟩ := exec_host_control hi hs h
    exacts [⟨hash, bi⟩, done, err, ⟨phase, t⟩]
  | engine =>
    obtain ⟨hash, regs, w, blk, digest⟩ := exec_engine_data hi h
    obtain ⟨len, err, msg, done⟩ := exec_engine_control hi h
    exact ⟨fun _ => hash, fun hw h0 h1 h2 h3 => regs hw (roundOf_eq_none h0 h1 h2 h3), w, blk, digest,
      fun _ _ => len, fun _ => done, fun _ => err, fun _ => nofun, msg, fun _ => by rw [msg]⟩

end Sys2Proof.Machine
end

section
/-! PROOFS. The flags and the invariant (10_state.md R26, R29): each holds after reset and every step keeps it,
by the turn that the step takes. -/

namespace Sys2Proof.Machine

/-! ## The flags (R29) -/

theorem flagsExclusive_of_busy {s : State} (h : FlagsExclusive s) (hb : s.phase ≠ .idle) :
    s.done = false ∧ s.err = false := by
  obtain ⟨notDone, notErr, -⟩ := h
  simp only [busy_eq_true, not_and, Bool.not_eq_true] at notDone notErr
  exact ⟨notDone hb, notErr hb⟩

theorem flagsExclusive_of_idle {s : State} (hp : s.phase = .idle) (h : ¬(s.done = true ∧ s.err = true)) :
    FlagsExclusive s := by
  simp [FlagsExclusive, busy, hp, h]

theorem flagsExclusive_of_clear {s : State} (hd : s.done = false) (he : s.err = false) : FlagsExclusive s := by
  simp [FlagsExclusive, hd, he]

theorem flagsExclusive_congr {s u : State} (hp : u.phase = s.phase) (hd : u.done = s.done) (he : u.err = s.err)
    (h : FlagsExclusive s) : FlagsExclusive u := by
  simpa only [FlagsExclusive, busy, hp, hd, he] using h

/-- A START that is processed clears DONE and sets ERR or PHASE, not both (R94, R161). -/
theorem flagsExclusive_processStart {s : State} (h : FlagsExclusive s) : FlagsExclusive (processStart s) := by
  rcases processStart_cases s with ⟨-, e⟩ | ⟨hp, -, e⟩ | ⟨-, -, e⟩ <;> rw [e]
  · exact h
  · exact flagsExclusive_of_idle (by simp [hp]) (by simp)
  · exact flagsExclusive_of_clear rfl rfl

theorem flagsExclusive_exec_host {i : Instr} {s u : State} (hi : i.agent = .host) (hx : FlagsExclusive s)
    (h : exec i s = .next u) : FlagsExclusive u := by
  by_cases hs : ∃ v, i = .start v
  · obtain ⟨v, rfl⟩ := hs
    rw [← Host.Outcome.next.inj h]
    exact flagsExclusive_processStart hx
  · obtain ⟨-, -, phase, -, done, err⟩ := exec_host_control hi (fun v hv => hs ⟨v, hv⟩) h
    exact flagsExclusive_congr phase done err hx

/-- Only DSER, which leaves the engine idle, writes a flag. -/
theorem engineNext_flags {s : State} (h : s.phase ≠ .dser) :
    (engineNext s).done = s.done ∧ (engineNext s).err = s.err := by
  cases hp : s.phase
  case dser => exact absurd hp h
  all_goals simp [engineNext, hp]

/-- Both flags are 0 while the engine is busy, and DSER sets DONE as it ends the run. -/
theorem flagsExclusive_engineNext {s : State} (h : FlagsExclusive s) : FlagsExclusive (engineNext s) := by
  by_cases hid : s.phase = .idle
  · simpa only [engineNext, hid] using h
  obtain ⟨done, err⟩ := flagsExclusive_of_busy h hid
  by_cases hds : s.phase = .dser
  · simp only [engineNext, hds]
    exact flagsExclusive_of_idle (by simp) (by simp [err])
  · obtain ⟨hd, he⟩ := engineNext_flags hds
    exact flagsExclusive_of_clear (hd.trans done) (he.trans err)

theorem flagsExclusive_step {s u : State} (hx : FlagsExclusive s) (h : step s = .next u) : FlagsExclusive u := by
  have popped : FlagsExclusive (popTurn s) := hx
  rcases step_agents h with ⟨-, rfl⟩ | ⟨w, -, he⟩ | ⟨-, rfl⟩ | ⟨j, x, -, rfl⟩
  · exact flagsExclusive_engineNext popped
  · exact flagsExclusive_exec_host (decodeHaw_agent w) popped he
  · exact flagsExclusive_of_clear rfl rfl
  · exact flagsExclusive_congr rfl rfl rfl popped

/-- Settles O49: the reset state's flags are evaluated, and every agent's turn keeps the exclusion. -/
theorem atMostOneFlagIsSet : Obligations.AtMostOneFlagIsSet :=
  ⟨⟨rfl, rfl, rfl⟩, fun _ _ => flagsExclusive_step⟩

/-! ## The sequencer's ranges (R26) -/

theorem sequencerLegal_of_idle {s : State} (h : s.phase = .idle) : SequencerLegal s := fun hb => absurd h hb

theorem sequencerLegal_congr {s u : State} (hp : u.phase = s.phase) (hl : u.len = s.len) (ht : u.t = s.t)
    (hb : u.bi = s.bi) (h : SequencerLegal s) : SequencerLegal u := by
  simpa only [SequencerLegal, BlockIndexLegal, hp, hl, ht, hb] using h

/-- What the invariant says of BI before the last block is done. -/
theorem bi_lt_of_legal {s : State} (h : SequencerLegal s) (hid : s.phase ≠ .idle) (hds : s.phase ≠ .dser) :
    s.bi.toNat < nblk s.len.toNat := by
  obtain ⟨-, hbi, -⟩ := h hid
  simpa only [BlockIndexLegal, if_neg hds] using hbi

theorem bi_eq_of_legal {s : State} (h : SequencerLegal s) (hds : s.phase = .dser) :
    s.bi.toNat = nblk s.len.toNat := by
  obtain ⟨-, hbi, -⟩ := h (by simp [hds])
  simpa only [BlockIndexLegal, if_pos hds] using hbi

/-- The index of WXP and RND after a step, when the phase that follows wants 0 (R121, R132). -/
theorem sequencerLegal_advanceIndex {s : State} {p : Phase} (hs : s.phase = .wxp ∨ s.phase = .rnd)
    (hp : p = .winit ∨ p = .hacc) (h : SequencerLegal s) : SequencerLegal (advanceIndex p s) := by
  have hid : s.phase ≠ .idle := by rcases hs with e | e <;> simp [e]
  have hds : s.phase ≠ .dser := by rcases hs with e | e <;> simp [e]
  have hbi := bi_lt_of_legal h hid hds
  obtain ⟨hl, -, wxp, -⟩ := h hid
  by_cases ht : s.t.val < 79
  · rw [advanceIndex_of_lt p s ht]
    refine fun _ => ⟨hl, by simpa only [BlockIndexLegal, if_neg hds] using hbi, fun e => ?_, fun e1 e2 => ?_⟩
    · exact (wxp e).trans (Nat.le_succ _)
    · exact absurd hs (not_or.2 ⟨e1, e2⟩)
  · rw [advanceIndex_of_last p s (by omega)]
    rcases hp with rfl | rfl <;> exact fun _ => ⟨hl, hbi, nofun, fun _ _ => rfl⟩

/-- HACC counts the block, and goes to DSER with the last one (R137). -/
theorem sequencerLegal_finishBlock {s : State} (hp : s.phase = .hacc) (h : SequencerLegal s) :
    SequencerLegal (finishBlock s) := by
  have hbi := bi_lt_of_legal h (by simp [hp]) (by simp [hp])
  obtain ⟨hl, -, -, zero⟩ := h (by simp [hp])
  have ht : s.t.val = 0 := zero (by simp [hp]) (by simp [hp])
  have counted : (finishBlock s).bi.toNat = s.bi.toNat + 1 := toNat_bi_succ hbi
  by_cases last : s.bi.toNat + 1 = nblk s.len.toNat
  · have phase : (finishBlock s).phase = .dser := by simp [last]
    refine fun _ => ⟨hl, ?_, by simp [last], fun _ _ => ht⟩
    rw [BlockIndexLegal, if_pos phase, counted]
    exact last
  · have phase : (finishBlock s).phase = .ldblk := by simp [last]
    refine fun _ => ⟨hl, ?_, by simp [last], fun _ _ => ht⟩
    rw [BlockIndexLegal, if_neg (by simp [last]), counted]
    exact Nat.lt_of_le_of_ne hbi last

theorem sequencerLegal_engineNext {s : State} (h : SequencerLegal s) : SequencerLegal (engineNext s) := by
  cases hp : s.phase <;> simp only [engineNext, hp]
  case idle => exact h
  case wxp =>
    have written : SequencerLegal (writeExpanded s) := sequencerLegal_congr (by simp) (by simp) (by simp) (by simp) h
    exact sequencerLegal_advanceIndex (.inl (by simpa using hp)) (.inl rfl) written
  case rnd =>
    have shifted : SequencerLegal (shiftRegisters (roundF s.t.val) (roundK s.t.val) s) := h
    exact sequencerLegal_advanceIndex (.inr hp) (.inr rfl) shifted
  case hacc => exact sequencerLegal_finishBlock hp h
  case dser => exact sequencerLegal_of_idle (by simp)
  all_goals
    have hbi := bi_lt_of_legal h (by simp [hp]) (by simp [hp])
    obtain ⟨hl, -, -, zero⟩ := h (by simp [hp])
    have ht : s.t.val = 0 := zero (by simp [hp]) (by simp [hp])
    simp [SequencerLegal, BlockIndexLegal, hl, hbi, ht]

/-- An accepted START leaves BI and T at 0 and a length in range (R94). -/
theorem sequencerLegal_acceptStart {s : State} (h : s.len.toNat ≤ maxLen) : SequencerLegal (acceptStart s) :=
  fun _ => ⟨h, nblk_pos _, nofun, fun _ _ => rfl⟩

theorem sequencerLegal_exec_host {i : Instr} {s u : State} (hi : i.agent = .host) (hq : SequencerLegal s)
    (h : exec i s = .next u) : SequencerLegal u := by
  by_cases hid : s.phase = .idle
  · by_cases hs : ∃ v, i = .start v
    · obtain ⟨v, rfl⟩ := hs
      rw [← Host.Outcome.next.inj h]
      rcases processStart_cases s with ⟨-, e⟩ | ⟨-, -, e⟩ | ⟨-, hl, e⟩ <;> rw [e]
      · exact hq
      · exact sequencerLegal_of_idle hid
      · exact sequencerLegal_acceptStart hl
    · obtain ⟨-, -, phase, -⟩ := exec_host_control hi (fun v hv => hs ⟨v, hv⟩) h
      exact sequencerLegal_of_idle (phase.trans hid)
  · rw [exec_host_busy hi hid h]
    exact hq

theorem sequencerLegal_step {s u : State} (hq : SequencerLegal s) (h : step s = .next u) : SequencerLegal u := by
  have popped : SequencerLegal (popTurn s) := hq
  rcases step_agents h with ⟨-, rfl⟩ | ⟨w, -, he⟩ | ⟨-, rfl⟩ | ⟨j, x, -, rfl⟩
  · exact sequencerLegal_engineNext popped
  · exact sequencerLegal_exec_host (decodeHaw_agent w) popped he
  · exact sequencerLegal_of_idle rfl
  · exact popped

/-! ## The message space (R50, R52) -/

theorem exec_msg {i : Instr} {s u : State} (h : exec i s = .next u) : u.msg = s.msg := by
  obtain ⟨-, -, -, -, -, -, -, -, -, msg, -⟩ := onlyTheNamedInstructionsWrite i s u h
  exact msg

theorem msg_wf_step {s u : State} (hm : s.msg.wf = true) (h : step s = .next u) : u.msg.wf = true := by
  rcases step_cases h with ⟨-, he⟩ | ⟨w, -, he⟩ | ⟨-, rfl⟩ | ⟨j, x, -, rfl⟩
  · rwa [exec_msg he]
  · rwa [exec_msg he]
  · exact hm
  · exact Memory.wf_write x j.isLt hm

/-! ## The invariant -/

/-- Settles O51: the flags, the sequencer's ranges and the canonical form (the model's own, log 11) are kept each
by itself. -/
theorem stepKeepsTheInvariant : Obligations.StepKeepsTheInvariant :=
  fun _ _ ⟨flags, sequencer, msg⟩ h =>
    ⟨flagsExclusive_step flags h, sequencerLegal_step sequencer h, msg_wf_step msg h⟩

/-- Settles O50: all flags are 0, the engine is idle and the message space is empty. -/
theorem invariantHoldsAtReset : Obligations.InvariantHoldsAtReset :=
  ⟨flagsExclusive_of_clear rfl rfl, sequencerLegal_of_idle rfl, Memory.wf_reset⟩

end Sys2Proof.Machine
end

section
/-! PROOFS. The digest buffer and what reset leaves in the host's registers (10_state.md R25, R33, R38). -/

namespace Sys2Proof.Machine

/-! ## While DONE is 1 (R25) -/

/-- An engine with DONE = 1 is idle, so its own turn changes nothing. -/
theorem idle_of_done {s : State} (h : FlagsExclusive s) (hd : s.done = true) : s.phase = .idle := by
  obtain ⟨notDone, -, -⟩ := h
  by_contra hb
  exact notDone ⟨(busy_eq_true s).2 hb, hd⟩

/-- Settles O44: the engine is idle, no host operation writes DIGEST, and none but START writes DONE. That a
message write leaves both is the model's choice (log 25). -/
theorem digestStaysWhileDone : Obligations.DigestStaysWhileDone := by
  intro s u hx hd hr h
  rcases step_agents h with ⟨-, rfl⟩ | ⟨w, ht, he⟩ | ⟨ht, -⟩ | ⟨j, x, -, rfl⟩
  · have idles : engineNext (popTurn s) = popTurn s := by
      simp only [engineNext, popTurn_phase, idle_of_done hx hd]
    simp [idles, hd]
  · obtain ⟨-, -, -, digest, -⟩ := exec_host_data (decodeHaw_agent w) he
    refine ⟨digest, fun hu => ⟨w, ht, ?_⟩⟩
    by_contra hs
    obtain ⟨-, -, -, -, done, -⟩ := exec_host_control (decodeHaw_agent w) (fun v hv => hs ⟨v, hv⟩) he
    simp [hu, hd] at done
  · exact absurd ht hr
  · simp [hd]

/-! ## Reading the digest (R33, R62) -/

/-- Word `k` of the serialized hash state is `H[k]` (R33, R150). -/
theorem digestWord_serialize (h : Vector Word 5) (k : Fin 5) : digestWord (serialize h) k = h[k] := by
  have first : (serialize h)[4 * k.val]'(by omega) = byteBe h[k].toNat 4 0 := by
    simpa using serialize_getElem h k (show 0 < 4 by omega)
  simp only [digestWord, first, serialize_getElem h k (show 1 < 4 by omega),
    serialize_getElem h k (show 2 < 4 by omega), serialize_getElem h k (show 3 < 4 by omega), be32_byteBe]

theorem readDigest_finishRun {s : State} (hm : s.msgChanged = false) (k : Fin 5) :
    readDigest k (finishRun s) = { finishRun s with rdValue := some s.h[k] } := by
  have word : digestWord (finishRun s).digest k = s.h[k] := by
    rw [finishRun_digest, hm, if_neg (by simp), digestWord_serialize]
  rcases readDigest_cases k (finishRun s) with ⟨-, e⟩ | ⟨hd, -⟩
  · rw [e, word]; rfl
  · simp at hd

/-- Settles O45: DIGEST holds the serialized `H`, and each of the five reads assembles one word of it. -/
theorem digestReadsReturnTheFinalHash : Obligations.DigestReadsReturnTheFinalHash := by
  intro s u _ hm h
  rw [← Host.Outcome.next.inj h]
  refine ⟨finishRun_done s, fun p hp => ?_⟩
  simp only [List.mem_cons, List.not_mem_nil, or_false] at hp
  rcases hp with rfl | rfl | rfl | rfl | rfl <;> exact congrArg _ (readDigest_finishRun hm _)

/-! ## After reset (R38) -/

/-- Settles O46: each register of the reset state is read; DONE is 0 there, so a digest read draws a free value. -/
theorem resetStateIsTheSpecs : Obligations.ResetStateIsTheSpecs := by
  refine ⟨rfl, rfl, rfl, rfl, rfl, rfl, fun i hi => ?_, fun i hi => ⟨0, ?_⟩⟩ <;>
    simp only [List.mem_cons, List.not_mem_nil, or_false] at hi
  · rcases hi with rfl | rfl | rfl | rfl <;> rfl
  · rcases hi with rfl | rfl | rfl | rfl | rfl <;> rfl

end Sys2Proof.Machine
end

section
/-! PROOFS. The micro-operations a run has left (40_host_operations.md R104, R152): each turn of the engine takes
the first of them, and every other turn but a reset leaves them all. -/

namespace Sys2Proof.Machine

/-! ## Steps complete -/

theorem exec_microOp_of_legal {s : State} (h : SequencerLegal s) :
    exec (microOp s) s = .next (engineNext s) := by
  refine exec_microOp s fun hp => ?_
  obtain ⟨hl, -⟩ := h (by simp [hp])
  exact missingOffset_none hl

/-- With the sequencer in its ranges no turn stops the machine (R153, R160). -/
theorem step_completes {s : State} (h : SequencerLegal s) : ∃ u, step s = .next u := by
  cases ht : nextTurn s with
  | engine => exact ⟨_, (step_engine ht).trans (exec_microOp_of_legal (s := popTurn s) h)⟩
  | host w =>
    rcases exec_next_or_missing (decodeHaw w) (popTurn s) with ⟨u, hu⟩ | ⟨hi, -⟩
    · exact ⟨u, (step_host ht).trans hu⟩
    · have host := decodeHaw_agent w
      rw [hi] at host
      cases host
  | reset => exact ⟨_, step_reset ht⟩
  | writeMsg j x => exact ⟨_, step_writeMsg ht⟩

/-! ## The micro-operations left -/

/-- The rounds of a block are those of the indices 0 to 79. -/
theorem roundOps_eq_map : roundOps = (List.range 80).map roundOp := rfl

theorem length_roundOps : roundOps.length = 80 := by simp [roundOps_eq_map]

theorem length_blockOps : blockOps.length = 148 := by simp [blockOps, length_roundOps]

theorem runOps_succ (n : Nat) : runOps (n + 1) = blockOps ++ runOps n := by
  simp [runOps, List.replicate_succ]

theorem length_runOps (n : Nat) : (runOps n).length = 148 * n + 1 := by
  induction n with
  | zero => rfl
  | succ n ih =>
    rw [runOps_succ, List.length_append, length_blockOps, ih]
    omega

theorem roundOps_drop (t : Fin 80) : roundOps.drop t.val = roundOp t.val :: roundOps.drop (t.val + 1) := by
  have ht : t.val < roundOps.length := by simp [length_roundOps]
  rw [List.drop_eq_getElem_cons ht]
  simp [roundOps_eq_map]

theorem opsLeft_congr {s u : State} (hp : u.phase = s.phase) (hl : u.len = s.len) (ht : u.t = s.t)
    (hb : u.bi = s.bi) : opsLeft u = opsLeft s := by
  unfold opsLeft
  rw [hp, hl, ht, hb]

theorem opsLeft_wxp {s : State} (hp : s.phase = .wxp) : opsLeft s = .wxp :: opsLeft (engineNext s) := by
  simp only [engineNext, hp]
  by_cases ht : s.t.val < 79
  · have counts : 80 - s.t.val = 80 - (s.t.val + 1) + 1 := by omega
    rw [advanceIndex_of_lt _ _ (by simpa using ht)]
    simp only [opsLeft, writeExpanded_phase, writeExpanded_t, writeExpanded_len, writeExpanded_bi, hp, counts,
      List.replicate_succ]
    rfl
  · have last : 80 - s.t.val = 1 := by omega
    rw [advanceIndex_of_last _ _ (by simp; omega)]
    simp only [opsLeft, writeExpanded_len, writeExpanded_bi, hp, last]
    rfl

theorem opsLeft_rnd {s : State} (hp : s.phase = .rnd) : opsLeft s = roundOp s.t.val :: opsLeft (engineNext s) := by
  simp only [engineNext, opsLeft, hp, roundOps_drop, roundStep_phase, roundStep_t_val, roundStep_len, roundStep_bi]
  by_cases ht : s.t.val < 79
  · simp [ht]
  · have last : s.t.val = 79 := by omega
    simp [last, length_roundOps]

/-- HACC is followed by the next block, or by DSER after the last one (R137). -/
theorem opsLeft_hacc {s : State} (h : SequencerLegal s) (hp : s.phase = .hacc) :
    opsLeft s = .hacc :: opsLeft (engineNext s) := by
  have hbi := bi_lt_of_legal h (by simp [hp]) (by simp [hp])
  simp only [engineNext, opsLeft, hp, finishBlock_phase, finishBlock_len, finishBlock_bi, toNat_bi_succ hbi]
  by_cases last : s.bi.toNat + 1 = nblk s.len.toNat
  · have none : nblk s.len.toNat - s.bi.toNat - 1 = 0 := by omega
    simp [last, none, runOps]
  · have more : nblk s.len.toNat - s.bi.toNat - 1 = (nblk s.len.toNat - (s.bi.toNat + 1) - 1) + 1 := by omega
    simp [last, more, runOps_succ]

/-- In each phase the micro-operation that the sequencer selects is the first of those left. -/
theorem opsLeft_engineNext {s : State} (h : SequencerLegal s) (hid : s.phase ≠ .idle) :
    opsLeft s = microOp s :: opsLeft (engineNext s) := by
  obtain ⟨-, selected⟩ := phaseSelectsTheMicroOperation
  rw [selected]
  cases hp : s.phase
  case idle => exact absurd hp hid
  case wxp => exact opsLeft_wxp hp
  case rnd => exact opsLeft_rnd hp
  case hacc => exact opsLeft_hacc h hp
  case ldblk | wld | winit | dser => simp [opsLeft, engineNext, hp, blockOps]

/-- A turn of the engine takes the first of the micro-operations left (R104). -/
theorem opsLeft_step_engine {s u : State} (hq : SequencerLegal s) (hid : s.phase ≠ .idle)
    (ht : nextTurn s = .engine) (h : step s = .next u) : opsLeft s = microOp s :: opsLeft u := by
  have popped : SequencerLegal (popTurn s) := hq
  rw [step_engine ht] at h
  rw [exec_microOp_next (s := popTurn s) h]
  exact opsLeft_engineNext popped hid

/-- During a run the other turns leave the sequencer state and LEN, a reset excepted (R61, R104). -/
theorem opsLeft_step_other {s u : State} (hid : s.phase ≠ .idle) (ht : nextTurn s ≠ .engine)
    (hr : nextTurn s ≠ .reset) (h : step s = .next u) : opsLeft u = opsLeft s := by
  rcases step_cases h with ⟨he, -⟩ | ⟨w, -, he⟩ | ⟨he, -⟩ | ⟨j, x, -, rfl⟩
  · exact absurd he ht
  · rw [exec_host_busy (s := popTurn s) (decodeHaw_agent w) hid he]
    exact opsLeft_congr rfl rfl rfl rfl
  · exact absurd he hr
  · exact opsLeft_congr rfl rfl rfl rfl

theorem opsLeft_ne_nil {s : State} (hq : SequencerLegal s) (hid : s.phase ≠ .idle) : opsLeft s ≠ [] := by
  rw [opsLeft_engineNext hq hid]
  exact List.cons_ne_nil _ _

theorem opsLeft_of_runStarts {s : State} (h : RunStarts s) : opsLeft s = runOps (nblk s.len.toNat) := by
  obtain ⟨phase, -, bi, -⟩ := h
  have blocks : nblk s.len.toNat = nblk s.len.toNat - 0 - 1 + 1 := by have := nblk_pos s.len.toNat; omega
  rw [blocks, runOps_succ]
  simp only [opsLeft, phase, bi]
  rfl

/-! ## The steps a schedule takes to the end of the run -/

/-- The turns of the schedule, and then the engine alone for the micro-operations it has no turn for there
(R190; log 3). -/
def stepsLeft (s : State) : Nat := s.sched.length + ((opsLeft s).length - s.sched.count .engine)

theorem stepsLeft_of_runStarts {s : State} (h : RunStarts s) :
    stepsLeft s = s.sched.length + (runLength s.len.toNat - s.sched.count .engine) := by
  rw [stepsLeft, opsLeft_of_runStarts h, length_runOps, runLength]

/-- Every step of a run whose schedule does not outlast it takes one off the steps left, and the schedule that
stays does not outlast what is left. -/
theorem stepsLeft_step {s u : State} (hq : SequencerLegal s) (hid : s.phase ≠ .idle) (hr : nextTurn s ≠ .reset)
    (hc : s.sched.count .engine < (opsLeft s).length) (h : step s = .next u) :
    stepsLeft s = stepsLeft u + 1 ∧ (opsLeft u ≠ [] → u.sched.count .engine < (opsLeft u).length) := by
  have pops : u.sched = s.sched.tail := step_sched h
  unfold stepsLeft
  cases hs : s.sched with
  | nil =>
    have left := congrArg List.length (opsLeft_step_engine hq hid (nextTurn_nil hs) h)
    simp only [pops, hs, List.tail_nil, List.length_nil, List.count_nil, List.length_cons] at left ⊢
    exact ⟨by omega, List.length_pos_iff.2⟩
  | cons x rest =>
    by_cases hx : x = .engine
    · subst hx
      have left := congrArg List.length (opsLeft_step_engine hq hid (nextTurn_cons hs) h)
      simp only [pops, hs, List.tail_cons, List.length_cons, List.count_cons_self] at hc left ⊢
      exact ⟨by omega, fun _ => by omega⟩
    · have left := opsLeft_step_other hid (by rwa [nextTurn_cons hs]) hr h
      rw [hs, List.count_cons_of_ne hx] at hc
      simp only [pops, hs, List.tail_cons, List.length_cons, List.count_cons_of_ne hx, left]
      exact ⟨by omega, fun _ => hc⟩

end Sys2Proof.Machine
end

section
/-! PROOFS. A run computes the contract (40_host_operations.md R90, 44_finalization.md R151): what each
micro-operation adds to it, what the other turns leave of it, and the digest at the end. -/

namespace Sys2Proof.Machine

/-! ## What each micro-operation computes -/

theorem loadBlock_computes {m : Nat → Byte} {s : State} (hm : ∀ j, j < s.len.toNat → s.msg.read j = m j)
    (hl : s.len.toNat ≤ maxLen) (hb : s.bi.toNat < nblk s.len.toNat) :
    (loadBlock s).blk = messageBlock m s.len.toNat s.bi.toNat := by
  rw [← messageBlock_congr hm, loadBlock_blk, messageBlock]
  congr 1
  funext k
  exact blockByte_of_legal hl hb k.isLt

theorem wordsComputed_congr {m : Nat → Byte} {l n : Nat} {s u : State} (hw : u.w = s.w) (hb : u.bi = s.bi)
    (h : WordsComputed m l s n) : WordsComputed m l u n := by
  simpa only [WordsComputed, hw, hb] using h

theorem loadSchedule_computes {m : Nat → Byte} {l : Nat} {s : State} (h : s.blk = messageBlock m l s.bi.toNat) :
    WordsComputed m l (loadSchedule s) 16 := by
  intro i hi
  have word := scheduleOf_low (messageBlock m l s.bi.toNat) hi
  simp [loadWords, hi, word, h]

/-- The words the four taps read are computed, so the word written is the contract's (R121). -/
theorem writeExpanded_computes {m : Nat → Byte} {l : Nat} {s : State} (ht : 16 ≤ s.t.val)
    (h : WordsComputed m l s s.t.val) : WordsComputed m l (writeExpanded s) (s.t.val + 1) := by
  have earlier : ∀ (j : Nat) (hj : j < s.t.val), s.w[j] = (scheduleOf (messageBlock m l s.bi.toNat))[j] :=
    fun j hj => h ⟨j, by omega⟩ hj
  have written : expandedWord s = (scheduleOf (messageBlock m l s.bi.toNat))[s.t.val] := by
    rw [scheduleOf_high _ ht s.t.isLt, expandedWord_of_le ht, nextWord, earlier _ (by omega), earlier _ (by omega),
      earlier _ (by omega), earlier _ (by omega)]
  intro i hi
  simp only [writeExpanded_w, writeExpanded_bi, Fin.getElem_fin]
  by_cases he : s.t.val = i.val
  · simp only [← he, Vector.getElem_set_self, written]
  · rw [Vector.getElem_set_ne _ _ he]
    exact earlier i.val (by omega)

/-- Once all 80 words are computed, W is the block's schedule. -/
theorem w_of_wordsComputed {m : Nat → Byte} {l : Nat} {s : State} (h : WordsComputed m l s 80) :
    s.w = scheduleOf (messageBlock m l s.bi.toNat) :=
  Vector.ext fun i hi => h ⟨i, hi⟩ hi

theorem roundStep_computes {m : Nat → Byte} {l : Nat} {s : State} (hw : WordsComputed m l s 80)
    (h : regsOf s = rounds (scheduleOf (messageBlock m l s.bi.toNat)) (initRegs s.h) s.t.val) :
    regsOf (roundStep (roundF s.t.val) (roundK s.t.val) s) =
      rounds (scheduleOf (messageBlock m l s.bi.toNat)) (initRegs s.h) (s.t.val + 1) := by
  rw [regsOf_roundStep, h, w_of_wordsComputed hw, rounds_succ _ _ s.t.isLt]

/-- HACC adds what the 80 rounds left to the hash state (R137). -/
theorem finishBlock_computes {m : Nat → Byte} {l : Nat} {s : State} (hb : s.bi.toNat < nblk s.len.toNat)
    (hh : s.h = hashBlocks m l s.bi.toNat)
    (h : regsOf s = rounds (scheduleOf (messageBlock m l s.bi.toNat)) (initRegs s.h) 80) :
    (finishBlock s).h = hashBlocks m l (finishBlock s).bi.toNat := by
  have added : accumulate s = addRegs s.h (regsOf s) := rfl
  rw [finishBlock_h, finishBlock_bi, toNat_bi_succ hb, hashBlocks_succ, added, h, hh]

/-- DSER serializes the hash state of all the blocks (R150). -/
theorem finishRun_computes {m : Nat → Byte} {l : Nat} {s : State} (hp : s.phase = .dser)
    (h : RunComputes m l s) : (finishRun s).digest = digestOf m l := by
  obtain ⟨rfl, -, clean, -, -, legal, hash, -⟩ := h
  rw [finishRun_digest, clean, if_neg (by simp), hash, bi_eq_of_legal legal hp, digestOf]

/-! ## What a step of a run keeps -/

theorem engineNext_message (s : State) :
    (engineNext s).len = s.len ∧ (engineNext s).msg = s.msg ∧ (engineNext s).msgChanged = s.msgChanged := by
  cases hp : s.phase <;> simp [engineNext, hp]

theorem engineNext_hash {s : State} (h : s.phase ≠ .hacc) :
    (engineNext s).h = s.h ∧ (engineNext s).bi = s.bi := by
  cases hp : s.phase
  case hacc => exact absurd hp h
  all_goals simp [engineNext, hp]

theorem phaseComputed_wld {m : Nat → Byte} {l : Nat} {s : State} (hp : s.phase = .wld) :
    PhaseComputed m l s ↔ s.blk = messageBlock m l s.bi.toNat := by simp only [PhaseComputed, hp]

theorem phaseComputed_wxp {m : Nat → Byte} {l : Nat} {s : State} (hp : s.phase = .wxp) :
    PhaseComputed m l s ↔ WordsComputed m l s s.t.val := by simp only [PhaseComputed, hp]

theorem phaseComputed_winit {m : Nat → Byte} {l : Nat} {s : State} (hp : s.phase = .winit) :
    PhaseComputed m l s ↔ WordsComputed m l s 80 := by simp only [PhaseComputed, hp]

theorem phaseComputed_rnd {m : Nat → Byte} {l : Nat} {s : State} (hp : s.phase = .rnd) :
    PhaseComputed m l s ↔ WordsComputed m l s 80 ∧
      regsOf s = rounds (scheduleOf (messageBlock m l s.bi.toNat)) (initRegs s.h) s.t.val := by
  simp only [PhaseComputed, hp]

theorem phaseComputed_hacc {m : Nat → Byte} {l : Nat} {s : State} (hp : s.phase = .hacc) :
    PhaseComputed m l s ↔
      regsOf s = rounds (scheduleOf (messageBlock m l s.bi.toNat)) (initRegs s.h) 80 := by
  simp only [PhaseComputed, hp]

theorem phaseComputed_of_between {m : Nat → Byte} {l : Nat} {s : State} (hp : s.phase = .ldblk ∨ s.phase = .dser) :
    PhaseComputed m l s := by
  rcases hp with hp | hp <;> simp only [PhaseComputed, hp]

theorem not_phaseComputed_idle {m : Nat → Byte} {l : Nat} {s : State} (hp : s.phase = .idle) :
    ¬ PhaseComputed m l s := by simp only [PhaseComputed, hp, not_false_eq_true]

theorem phaseComputed_advance_wxp {m : Nat → Byte} {l : Nat} {s : State} (hp : s.phase = .wxp)
    (h : WordsComputed m l s (s.t.val + 1)) : PhaseComputed m l (advanceIndex .winit s) := by
  have words : WordsComputed m l (advanceIndex .winit s) (s.t.val + 1) := wordsComputed_congr (by simp) (by simp) h
  by_cases ht : s.t.val < 79
  · rw [phaseComputed_wxp (by simp [advanceIndex_phase, ht, hp]), advanceIndex_t_val, if_pos ht]
    exact words
  · rw [phaseComputed_winit (by simp [advanceIndex_phase, ht])]
    rwa [show s.t.val + 1 = 80 by omega] at words

theorem phaseComputed_roundStep {m : Nat → Byte} {l : Nat} {s : State} (hp : s.phase = .rnd)
    (h : PhaseComputed m l s) : PhaseComputed m l (roundStep (roundF s.t.val) (roundK s.t.val) s) := by
  obtain ⟨words, regs⟩ := (phaseComputed_rnd hp).1 h
  have next := roundStep_computes words regs
  by_cases ht : s.t.val < 79
  · rw [phaseComputed_rnd (by simp [roundStep_phase, ht, hp]), roundStep_t_val, if_pos ht, roundStep_bi, roundStep_h]
    exact ⟨wordsComputed_congr (by simp) (by simp) words, next⟩
  · rw [phaseComputed_hacc (by simp [roundStep_phase, ht]), roundStep_bi, roundStep_h]
    rwa [show s.t.val + 1 = 80 by omega] at next

/-- What the phase after a micro-operation asks for is what the micro-operation computed. -/
theorem phaseComputed_engineNext {m : Nat → Byte} {s : State} (hm : ∀ j, j < s.len.toNat → s.msg.read j = m j)
    (hq : SequencerLegal s) (hds : s.phase ≠ .dser) (h : PhaseComputed m s.len.toNat s) :
    PhaseComputed m s.len.toNat (engineNext s) := by
  cases hp : s.phase <;> simp only [engineNext, hp]
  case idle => exact h
  case ldblk =>
    obtain ⟨hl, -⟩ := hq (by simp [hp])
    rw [phaseComputed_wld (loadBlock_phase s), loadBlock_bi]
    exact loadBlock_computes hm hl (bi_lt_of_legal hq (by simp [hp]) hds)
  case wld =>
    rw [phaseComputed_wxp (loadSchedule_phase s), loadSchedule_t]
    exact loadSchedule_computes ((phaseComputed_wld hp).1 h)
  case wxp =>
    obtain ⟨-, -, ht, -⟩ := hq (by simp [hp])
    exact phaseComputed_advance_wxp (by simpa using hp)
      (by simpa using writeExpanded_computes (ht hp) ((phaseComputed_wxp hp).1 h))
  case winit =>
    rw [phaseComputed_rnd (initWorking_phase s), initWorking_t]
    exact ⟨wordsComputed_congr (by simp) (by simp) ((phaseComputed_winit hp).1 h), rfl⟩
  case rnd => exact phaseComputed_roundStep hp h
  case hacc =>
    refine phaseComputed_of_between ?_
    rw [finishBlock_phase]
    split
    · exact .inr rfl
    · exact .inl rfl
  case dser => exact absurd hp hds

theorem runComputes_engineNext {m : Nat → Byte} {l : Nat} {s : State} (h : RunComputes m l s)
    (hds : s.phase ≠ .dser) : RunComputes m l (engineNext s) := by
  obtain ⟨rfl, msg, clean, done, err, legal, hash, phase⟩ := h
  obtain ⟨len', msg', clean'⟩ := engineNext_message s
  obtain ⟨done', err'⟩ := engineNext_flags hds
  have hash' : (engineNext s).h = hashBlocks m s.len.toNat (engineNext s).bi.toNat := by
    by_cases hp : s.phase = .hacc
    · simp only [engineNext, hp]
      exact finishBlock_computes (bi_lt_of_legal legal (by simp [hp]) hds) hash ((phaseComputed_hacc hp).1 phase)
    · obtain ⟨h', bi'⟩ := engineNext_hash hp
      rw [h', bi', hash]
  exact ⟨by rw [len'], by rwa [msg'], clean'.trans clean, done'.trans done, err'.trans err,
    sequencerLegal_engineNext legal, hash', phaseComputed_engineNext msg legal hds phase⟩

/-- A message write at or above LEN leaves the run's message as it was (R60). -/
theorem runComputes_hostWriteMsg {m : Nat → Byte} {l : Nat} {s : State} {j : BitVec 61} (x : Byte)
    (hw : s.msg.wf = true) (hj : l ≤ j.toNat) (h : RunComputes m l s) : RunComputes m l (hostWriteMsg j x s) := by
  obtain ⟨rfl, msg, clean, rest⟩ := h
  refine ⟨rfl, fun i hi => ?_, by simp [clean, hj], rest⟩
  rw [hostWriteMsg_msg, Memory.read_write_other x (by omega) s.msg hw, msg i hi]

theorem phase_ne_idle_of_runComputes {m : Nat → Byte} {l : Nat} {s : State} (h : RunComputes m l s) :
    s.phase ≠ .idle := by
  intro hp
  obtain ⟨-, -, -, -, -, -, -, phase⟩ := h
  exact not_phaseComputed_idle hp phase

/-- A run goes on computing the contract until the engine's turn in DSER ends it (R151). -/
theorem runComputes_step {m : Nat → Byte} {l : Nat} {s u : State} (hw : s.msg.wf = true) (hc : RunComputes m l s)
    (hx : harmless l (nextTurn s) = true) (h : step s = .next u) :
    RunComputes m l u ∨ (s.phase = .dser ∧ nextTurn s = .engine ∧ u = finishRun (popTurn s)) := by
  have popped : RunComputes m l (popTurn s) := hc
  rcases step_agents h with ⟨ht, rfl⟩ | ⟨w, -, he⟩ | ⟨ht, -⟩ | ⟨j, x, ht, rfl⟩
  · by_cases hp : s.phase = .dser
    · exact .inr ⟨hp, ht, by simp only [engineNext, popTurn_phase, hp]⟩
    · exact .inl (runComputes_engineNext popped hp)
  · rw [exec_host_busy (decodeHaw_agent w) (phase_ne_idle_of_runComputes popped) he]
    exact .inl popped
  · simp [ht, harmless] at hx
  · simp only [ht, harmless, decide_eq_true_eq] at hx
    exact .inl (runComputes_hostWriteMsg x hw hx popped)

/-! ## The whole run -/

theorem harmless_nextTurn {l : Nat} {s : State} (h : ∀ x ∈ s.sched, harmless l x = true) :
    harmless l (nextTurn s) = true := by
  cases hs : s.sched with
  | nil => rw [nextTurn_nil hs]; rfl
  | cons x rest => rw [nextTurn_cons hs]; exact h x (by simp [hs])

/-- Before DSER a schedule that does not outlast the run has no turn of the engine but this one. -/
theorem sched_nil_of_last {s : State} (hp : s.phase = .dser) (ht : nextTurn s = .engine)
    (hk : s.sched.count .engine < (opsLeft s).length) : s.sched = [] := by
  cases hs : s.sched with
  | nil => rfl
  | cons x rest =>
    rw [nextTurn_cons hs] at ht
    simp [hs, ht, opsLeft, hp] at hk

/-- The run ends when the schedule is used up and the engine has taken the turns it lacks (R190; log 3), with the
contract's digest. -/
theorem run_leaves_digest {m : Nat → Byte} {l : Nat} (n : Nat) {s : State} (hw : s.msg.wf = true)
    (hc : RunComputes m l s) (hx : ∀ x ∈ s.sched, harmless l x = true)
    (hk : s.sched.count .engine < (opsLeft s).length) (hn : stepsLeft s = n) :
    ∃ u, Sys2Proof.core.run n s = .next u ∧ u.phase = .idle ∧ u.done = true ∧ u.err = false ∧
      u.digest = digestOf m l := by
  induction n generalizing s with
  | zero => rw [stepsLeft] at hn; omega
  | succ n ih =>
    have hid := phase_ne_idle_of_runComputes hc
    have ⟨_, _, _, _, err, legal, _⟩ := hc
    obtain ⟨u, hu⟩ := step_completes legal
    have turn := harmless_nextTurn hx
    have hr : nextTurn s ≠ .reset := by intro e; simp [e, harmless] at turn
    obtain ⟨left, outlasts⟩ := stepsLeft_step legal hid hr hk hu
    have sched := step_sched hu
    rw [core_run_succ n hu]
    rcases runComputes_step hw hc turn hu with hc' | ⟨hp, ht, rfl⟩
    · have ⟨_, _, _, _, _, legal', _⟩ := hc'
      exact ih (msg_wf_step hw hu) hc' (fun x hm => hx x (List.mem_of_mem_tail (sched ▸ hm)))
        (outlasts (opsLeft_ne_nil legal' (phase_ne_idle_of_runComputes hc'))) (by omega)
    · have used := sched_nil_of_last hp ht hk
      have last : n = 0 := by simpa [stepsLeft, used, opsLeft, hp] using hn.symm
      subst last
      exact ⟨_, core_run_zero _, finishRun_phase _, finishRun_done _, by simp [err],
        finishRun_computes hp (s := popTurn s) hc⟩

/-- The state an accepted START leaves computes the contract of the message it finds. -/
theorem runComputes_of_runStarts {s : State} (h : RunStarts s) : RunComputes s.msg.read s.len.toNat s := by
  obtain ⟨phase, t, bi, hash, done, err, clean, hl⟩ := h
  have legal : SequencerLegal s := fun _ =>
    ⟨hl, by simp [BlockIndexLegal, phase, bi, nblk_pos], by simp [phase], fun _ _ => t⟩
  refine ⟨rfl, fun _ _ => rfl, clean, done, err, legal, ?_, ?_⟩
  · rw [hash, bi]; rfl
  · exact phaseComputed_of_between (.inl phase)

/-- Settles O58: each of the two runs leaves the contract's digest of its own message, and the contract reads the
bytes below LEN alone. -/
theorem runsAreIndependent : Obligations.RunsAreIndependent := by
  intro s q hs hq sw qw hl hm sx qx sk qk
  rw [← stepsLeft_of_runStarts hs, ← stepsLeft_of_runStarts hq]
  have outlasts : ∀ {s : State}, RunStarts s → s.sched.count .engine < runLength s.len.toNat →
      s.sched.count .engine < (opsLeft s).length := by
    intro s hs hk
    rwa [opsLeft_of_runStarts hs, length_runOps]
  obtain ⟨u, urun, -, udone, -, udigest⟩ :=
    run_leaves_digest _ sw (runComputes_of_runStarts hs) sx (outlasts hs sk) rfl
  obtain ⟨x, xrun, -, xdone, -, xdigest⟩ :=
    run_leaves_digest _ qw (runComputes_of_runStarts hq) qx (outlasts hq qk) rfl
  exact ⟨u, x, urun, xrun, udone, xdone, by rw [udigest, xdigest, ← hl, digestOf_congr hm]⟩

end Sys2Proof.Machine
end

section
/-! PROOFS. The turn that a step takes and the word it decodes (20_memory.md R59, 40_host_operations.md R104). -/

namespace Sys2Proof.Machine

theorem popTurn_of_cons {s : State} {x : Turn} {rest : List Turn} (h : s.sched = x :: rest) :
    popTurn s = { s with sched := rest } := by
  rw [popTurn, h, List.tail_cons]

/-- An empty schedule stays empty, so the state without its next turn is the state. -/
theorem popTurn_of_nil {s : State} (h : s.sched = []) : popTurn s = s := by
  rw [popTurn, h, List.tail_nil, ← h]

/-- Settles O9: each kind of turn by its own equation of `step`, with the turn taken off the schedule. -/
theorem stepExecutesTheDecodedInstruction : Obligations.StepExecutesTheDecodedInstruction := by
  refine ⟨fun s w rest h => ?_, fun s rest h => ?_, fun s h => ?_, fun s rest h => ?_, fun s j x rest h => ?_⟩
  · rw [step_host (nextTurn_cons h), popTurn_of_cons h]
  · rw [step_engine (nextTurn_cons h), popTurn_of_cons h, microOp]
  · rw [step_engine (nextTurn_nil h), popTurn_of_nil h, microOp]
  · rw [step_reset (nextTurn_cons h), popTurn_of_cons h]
  · rw [step_writeMsg (nextTurn_cons h), popTurn_of_cons h]

end Sys2Proof.Machine
end

section
/-! PROOFS. The reads of the message space (20_memory.md R50, R51): the offsets that the loads of a run read, and
the one load that stops because an offset does not exist. -/

namespace Sys2Proof.Machine

/-! ## The offsets a run reads (R51) -/

/-- The loads of the first `n` blocks go through the offsets below `64 * n` and read those below the length. -/
theorem flatMap_blockReads (l n : Nat) :
    (List.range n).flatMap (blockReads l) = (List.range (64 * n)).filter (· < l) := by
  induction n with
  | zero => rfl
  | succ n ih =>
    rw [List.range_succ, List.flatMap_append, ih, Nat.mul_succ, List.range_add, List.filter_append,
      List.flatMap_singleton, blockReads]

theorem filter_lt_range {l n : Nat} (h : l ≤ n) : (List.range n).filter (· < l) = List.range l := by
  simpa only [List.Ico.zero_bot] using List.Ico.filter_lt_of_ge (n := 0) h

/-- Settles O36: the blocks of a run cover the message, and each load keeps the offsets of its block below LEN. -/
theorem runReadsEachOffsetOnceAscending : Obligations.RunReadsEachOffsetOnceAscending := by
  refine ⟨fun l => ?_, fun l b j => ?_, rfl⟩
  · have covers : l ≤ 64 * nblk l := by have := le_nblk l; omega
    rw [flatMap_blockReads, filter_lt_range covers]
  · rw [mem_blockReads]
    omega

/-! ## The load that stops (R50) -/

/-- The first offset of a block that lies in the message is the first one read. -/
theorem blockReads_eq_cons {l b : Nat} (h : 64 * b < l) : ∃ rest, blockReads l b = 64 * b :: rest := by
  rw [blockReads, List.range_succ_eq_map, List.map_cons, List.filter_cons_of_pos (by simpa using h)]
  exact ⟨_, rfl⟩

/-- An offset that a load misses is at or above 2^61, below LEN, and in the load's block. -/
theorem missingOffset_some {s : State} {j : Nat} (h : missingOffset s = some j) :
    spaceSize ≤ j ∧ j < s.len.toNat ∧ 64 * s.bi.toNat ≤ j ∧ j < 64 * s.bi.toNat + 64 := by
  have beyond : spaceSize ≤ j := by simpa using List.find?_some h
  exact ⟨beyond, mem_blockReads.1 (List.mem_of_find?_eq_some h)⟩

theorem missingOffset_of_block_beyond {s : State} (hs : spaceSize ≤ 64 * s.bi.toNat)
    (hl : 64 * s.bi.toNat < s.len.toNat) : missingOffset s = some (64 * s.bi.toNat) := by
  obtain ⟨rest, reads⟩ := blockReads_eq_cons hl
  rw [missingOffset, reads, List.find?_cons_of_pos (by simpa using hs)]

/-- Settles O26: every instruction completes but a load that misses an offset; as 64 divides 2^61, its whole block
is then beyond the space. -/
theorem onlyLdblkBeyondTheSpaceStops : Obligations.OnlyLdblkBeyondTheSpaceStops := by
  refine ⟨fun i s r h => ?_, fun i s f h => ?_, fun s j hj hl hb => ?_⟩
  · rcases exec_next_or_missing i s with ⟨u, e⟩ | ⟨-, k, -, e⟩ <;> cases h.symm.trans e
  · rcases exec_next_or_missing i s with ⟨u, e⟩ | ⟨hi, k, missing, -⟩
    · cases h.symm.trans e
    · obtain ⟨beyond, below, -, inBlock⟩ := missingOffset_some missing
      unfold spaceSize at beyond
      unfold maxLen
      exact ⟨hi, by omega, by omega⟩
  · have missing := missingOffset_of_block_beyond (s := s) (by unfold spaceSize; omega) (by omega)
    rw [exec, execLdblk, missing]

end Sys2Proof.Machine
end

section
/-! PROOFS. Who writes the message space and LEN (20_memory.md R52, R60, R61): the host alone, LEN only while the
engine is idle, and what a message byte changed during a run does to the digest. -/

namespace Sys2Proof.Machine

/-! ## The message space (R52) -/

/-- Settles O53: the canonical form (the model's own, log 11) is kept by every turn. -/
theorem stepKeepsTheMessageCanonical : Obligations.StepKeepsTheMessageCanonical :=
  fun _ _ => msg_wf_step

/-- Of the engine and its message space a message write changes the message space alone (R17, R183). -/
theorem sameEngine_hostWriteMsg (j : BitVec 61) (x : Byte) (s : State) :
    SameEngine s { hostWriteMsg j x s with msg := s.msg } := by
  simp [SameEngine]

/-- Settles O42: no instruction and no reset writes the message space, and a message write is `Memory.write`. That
it leaves the engine alone before the host has read DONE = 1 too is the model's choice (log 25). -/
theorem onlyTheHostWritesTheMessage : Obligations.OnlyTheHostWritesTheMessage := by
  refine ⟨fun s u h noWrite => ?_, fun s u j x hw ht h => ?_⟩
  · rcases step_cases h with ⟨-, he⟩ | ⟨w, -, he⟩ | ⟨-, rfl⟩ | ⟨j, x, ht, -⟩
    · exact (exec_msg he).trans (popTurn_msg s)
    · exact (exec_msg he).trans (popTurn_msg s)
    · simp
    · exact absurd ht (noWrite j x)
  · obtain rfl : hostWriteMsg j x (popTurn s) = u := Host.Outcome.next.inj ((step_writeMsg ht).symm.trans h)
    exact ⟨Memory.read_write_same x s.msg hw, fun i hi => Memory.read_write_other x hi s.msg hw,
      sameEngine_hostWriteMsg j x (popTurn s)⟩

/-! ## The length (R61) -/

theorem writeLen_busy {s : State} (h : s.phase ≠ .idle) (l : BitVec 64) : writeLen l s = s := by
  rcases writeLen_cases l s with ⟨-, e⟩ | ⟨hp, -⟩
  · exact e
  · exact absurd hp h

theorem len_step_busy {s u : State} (hb : s.phase ≠ .idle) (hr : nextTurn s ≠ .reset) (h : step s = .next u) :
    u.len = s.len := by
  rcases step_agents h with ⟨-, rfl⟩ | ⟨w, -, he⟩ | ⟨ht, -⟩ | ⟨j, x, -, rfl⟩
  · obtain ⟨len, -⟩ := engineNext_message (popTurn s)
    exact len
  · rw [exec_host_busy (s := popTurn s) (decodeHaw_agent w) hb he]
    rfl
  · exact absurd ht hr
  · simp

/-- Settles O43: no turn but a reset writes LEN of a busy engine, and its two write operations are ignored. -/
theorem lengthIsFixedDuringARun : Obligations.LengthIsFixedDuringARun := by
  refine ⟨fun s u hb => len_step_busy ((busy_eq_true s).1 hb), fun v s hb => ?_⟩
  have ignored := writeLen_busy ((busy_eq_true s).1 hb)
  exact ⟨congrArg _ (ignored _), congrArg _ (ignored _)⟩

/-! ## A changed message (R60, R184, U6) -/

theorem finishRun_of_msgChanged {s : State} (h : s.msgChanged = true) :
    finishRun s = { s with digest := freeDigest s, draws := s.draws + 20, done := true, phase := .idle } := by
  simp only [finishRun, h, if_true]

/-- Settles O33: the note that a message write leaves, and the branch of DSER that it selects. The note, the draws
and the end of the window at DSER are the model's own (log 12, 25). -/
theorem changedMessageLeavesTheDigestFree : Obligations.ChangedMessageLeavesTheDigestFree := by
  refine ⟨fun j x s => ?_, fun s h => ?_⟩
  · simp only [hostWriteMsg_msgChanged, Bool.or_eq_true, Bool.and_eq_true, busy_eq_true, decide_eq_true_eq]
  · rw [exec, execDser, finishRun_of_msgChanged h, freeDigest]

end Sys2Proof.Machine
end

section
/-! PROOFS. Decoder and encoder (30_encoding.md R70, R71, R74, R77): the round trip, and from it everything about
arbitrary words, because every word decodes as its canonical word does, and every canonical word is the word of a
well-formed instruction. -/

namespace Sys2Proof

/-! ## The operands that a row admits (R75) -/

theorem wellFormed_ctrlnop (v : Word) : (Instr.ctrlnop v).WellFormed ↔ ¬ v.getLsbD 0 = true := by
  rw [Instr.WellFormed, Instr.wf, Bool.not_eq_true', Bool.not_eq_true]

/-- The register numbers of a row that covers several are a range. -/
theorem range_iff (lo hi n : Nat) : (lo ≤ n && n ≤ hi : Bool) = true ↔ lo ≤ n ∧ n ≤ hi := by
  rw [Bool.and_eq_true, decide_eq_true_eq, decide_eq_true_eq]

theorem wellFormed_wrdig03 (r : BitVec 4) (v : Word) :
    (Instr.wrdig03 r v).WellFormed ↔ 4 ≤ r.toNat ∧ r.toNat ≤ 7 := range_iff 4 7 r.toNat

theorem wellFormed_rdrsv10to11 (r : BitVec 4) :
    (Instr.rdrsv10to11 r).WellFormed ↔ 10 ≤ r.toNat ∧ r.toNat ≤ 11 := range_iff 10 11 r.toNat

theorem wellFormed_wrrsv10to11 (r : BitVec 4) (v : Word) :
    (Instr.wrrsv10to11 r v).WellFormed ↔ 10 ≤ r.toNat ∧ r.toNat ≤ 11 := range_iff 10 11 r.toNat

theorem wellFormed_rdrsv12to15 (r : BitVec 4) : (Instr.rdrsv12to15 r).WellFormed ↔ 12 ≤ r.toNat :=
  decide_eq_true_iff

theorem wellFormed_wrrsv12to15 (r : BitVec 4) (v : Word) : (Instr.wrrsv12to15 r v).WellFormed ↔ 12 ≤ r.toNat :=
  decide_eq_true_iff

/-! ## The rows that cover several register numbers (R75) -/

theorem decodeWrite_dig03 {r : BitVec 4} (v : Word) (h4 : 4 ≤ r.toNat) (h7 : r.toNat ≤ 7) :
    decodeWrite r v = .wrdig03 r v := by
  obtain h | h | h | h : r.toNat = 4 ∨ r.toNat = 5 ∨ r.toNat = 6 ∨ r.toNat = 7 := by omega
  all_goals simp only [decodeWrite, h]

theorem decodeWrite_rsv10to11 {r : BitVec 4} (v : Word) (h10 : 10 ≤ r.toNat) (h11 : r.toNat ≤ 11) :
    decodeWrite r v = .wrrsv10to11 r v := by
  obtain h | h : r.toNat = 10 ∨ r.toNat = 11 := by omega
  all_goals simp only [decodeWrite, h]

theorem decodeWrite_rsv12to15 {r : BitVec 4} (v : Word) (h12 : 12 ≤ r.toNat) :
    decodeWrite r v = .wrrsv12to15 r v := by
  obtain h | h | h | h : r.toNat = 12 ∨ r.toNat = 13 ∨ r.toNat = 14 ∨ r.toNat = 15 := by omega
  all_goals simp only [decodeWrite, h]

theorem decodeRead_rsv10to11 : ∀ r : BitVec 4, 10 ≤ r.toNat → r.toNat ≤ 11 → decodeRead r = .rdrsv10to11 r := by
  decide

theorem decodeRead_rsv12to15 : ∀ r : BitVec 4, 12 ≤ r.toNat → decodeRead r = .rdrsv12to15 r := by decide

/-! ## The round trip -/

/-- Settles O1: a write's and a read's word is decoded by its register number, where only the rows that several
operands share need their premise; a selector is evaluated. -/
theorem decodeEncodeRoundTrip : Obligations.DecodeEncodeRoundTrip := by
  intro i hi
  cases i
  case start v =>
    have set : v.getLsbD 0 = true := hi
    exact (decode_wrWord 0 v).trans (if_pos set)
  case ctrlnop v => exact (decode_wrWord 0 v).trans (if_neg ((wellFormed_ctrlnop v).1 hi))
  case wrdig03 r v =>
    obtain ⟨h4, h7⟩ := (wellFormed_wrdig03 r v).1 hi
    exact (decode_wrWord r v).trans (decodeWrite_dig03 v h4 h7)
  case wrrsv10to11 r v =>
    obtain ⟨h10, h11⟩ := (wellFormed_wrrsv10to11 r v).1 hi
    exact (decode_wrWord r v).trans (decodeWrite_rsv10to11 v h10 h11)
  case wrrsv12to15 r v =>
    exact (decode_wrWord r v).trans (decodeWrite_rsv12to15 v ((wellFormed_wrrsv12to15 r v).1 hi))
  case rdrsv10to11 r =>
    obtain ⟨h10, h11⟩ := (wellFormed_rdrsv10to11 r).1 hi
    exact (decode_rdWord r).trans (decodeRead_rsv10to11 r h10 h11)
  case rdrsv12to15 r =>
    exact (decode_rdWord r).trans (decodeRead_rsv12to15 r ((wellFormed_rdrsv12to15 r).1 hi))
  case wrlenlo v | wrlenhi v | wrstatus v | wrdig4 v | wrrsv9 v => exact decode_wrWord _ v
  case rdctrl | rdstatus | rdlenlo | rdlenhi | rddig0 | rddig1 | rddig2 | rddig3 | rddig4 | rdrsv9 =>
    exact decode_rdWord _
  case idle | ldblk | wld | wxp | winit | rnd0 | rnd1 | rnd2 | rnd3 | hacc | dser => rfl

/-! ## Every canonical word is the word of a well-formed instruction -/

/-- The register numbers by the rows of R75 for writes. -/
theorem register_cases : ∀ r : BitVec 4,
    r = 0 ∨ r = 1 ∨ r = 2 ∨ r = 3 ∨ (4 ≤ r.toNat ∧ r.toNat ≤ 7) ∨ r = 8 ∨ r = 9 ∨
      (10 ≤ r.toNat ∧ r.toNat ≤ 11) ∨ 12 ≤ r.toNat := by decide

theorem wrWord_is_encoding (r : BitVec 4) (v : Word) : ∃ i : Instr, i.WellFormed ∧ encode i = wrWord r v := by
  rcases register_cases r with rfl | rfl | rfl | rfl | range | rfl | rfl | range | range
  · by_cases set : v.getLsbD 0 = true
    · exact ⟨.start v, set, rfl⟩
    · exact ⟨.ctrlnop v, (wellFormed_ctrlnop v).2 set, rfl⟩
  · exact ⟨.wrstatus v, rfl, rfl⟩
  · exact ⟨.wrlenlo v, rfl, rfl⟩
  · exact ⟨.wrlenhi v, rfl, rfl⟩
  · exact ⟨.wrdig03 r v, (wellFormed_wrdig03 r v).2 range, rfl⟩
  · exact ⟨.wrdig4 v, rfl, rfl⟩
  · exact ⟨.wrrsv9 v, rfl, rfl⟩
  · exact ⟨.wrrsv10to11 r v, (wellFormed_wrrsv10to11 r v).2 range, rfl⟩
  · exact ⟨.wrrsv12to15 r v, (wellFormed_wrrsv12to15 r v).2 range, rfl⟩

theorem rdWord_is_encoding (r : BitVec 4) : ∃ i : Instr, i.WellFormed ∧ encode i = rdWord r :=
  have checked : ∀ r, (decodeRead r).WellFormed ∧ encode (decodeRead r) = rdWord r := by decide
  ⟨decodeRead r, checked r⟩

theorem canonical_sel_is_encoding (q : BitVec 5) : ∃ i : Instr, i.WellFormed ∧ encode i = canonical (.sel q) :=
  have checked : ∀ q, (decodeSel q).WellFormed ∧ encode (decodeSel q) = canonical (.sel q) := by decide
  ⟨decodeSel q, checked q⟩

/-! ## A host word as the word of a read or a write -/

theorem haw_of_write {w : BitVec 37} (h : hawWe w = true) : .haw w = wrWord (hawReg w) (hawData w) := by
  have fields := mkHaw_fields w
  rw [h] at fields
  exact congrArg AccessWord.haw fields.symm

theorem decodeHaw_of_read {w : BitVec 37} (h : hawWe w = false) : decodeHaw w = decodeRead (hawReg w) := by
  simp [decodeHaw, h]

theorem canonical_of_write {w : BitVec 37} (h : hawWe w = true) : canonical (.haw w) = .haw w := by
  simp [canonical, h]

theorem canonical_of_read {w : BitVec 37} (h : hawWe w = false) : canonical (.haw w) = rdWord (hawReg w) := by
  simp [canonical, h]

theorem canonical_is_encoding (x : AccessWord) : ∃ i : Instr, i.WellFormed ∧ encode i = canonical x := by
  cases x with
  | haw w =>
    cases h : hawWe w with
    | false => rw [canonical_of_read h]; exact rdWord_is_encoding _
    | true => rw [canonical_of_write h, haw_of_write h]; exact wrWord_is_encoding _ _
  | sel q => exact canonical_sel_is_encoding q

/-! ## Every word decodes as its canonical word does -/

theorem decode_canonical (x : AccessWord) : decode (canonical x) = decode x := by
  cases x with
  | haw w =>
    cases h : hawWe w with
    | false => rw [canonical_of_read h, decode_rdWord, decode, decodeHaw_of_read h]
    | true => rw [canonical_of_write h]
  | sel q => exact (by decide : ∀ q, decode (canonical (.sel q)) = decode (.sel q)) q

theorem decode_wellFormed_and_encode (x : AccessWord) : (decode x).WellFormed ∧ encode (decode x) = canonical x := by
  obtain ⟨i, hi, word⟩ := canonical_is_encoding x
  have decodes : decode x = i := by rw [← decode_canonical, ← word, decodeEncodeRoundTrip i hi]
  rw [decodes]
  exact ⟨hi, word⟩

/-- Settles O2: the canonical word is the word of what `x` decodes to. That it has 0 for the group outside RND is
the model's choice (log 19). -/
theorem encodeDecodeIsCanonicalWord : Obligations.EncodeDecodeIsCanonicalWord :=
  fun x => (decode_wellFormed_and_encode x).2

/-- Settles O3: a word decodes to the well-formed instruction whose word is its canonical one, and the format
determines the agent. -/
theorem everyWordDecodesToWellFormed : Obligations.EveryWordDecodesToWellFormed :=
  ⟨fun x => (decode_wellFormed_and_encode x).1, Machine.decodeHaw_agent, Machine.decodeSel_agent⟩

end Sys2Proof
end

section
/-! PROOFS. The opcode map (30_encoding.md R75, R76). Two rows that hit one word agree on the bits that both test, so
disjointness is a fact of the two tables; then a word is the operation of a row as soon as the row of its operation
hits it. -/

namespace Sys2Proof

/-! ## Tables of rows -/

/-- Of the rows of a table no two can hit one word: only equal rows agree on the bits that both test. -/
def DisjointRows {n : Nat} (table : List (Row n)) : Prop :=
  ∀ r ∈ table, ∀ q ∈ table, r.matchBits &&& q.mask = q.matchBits &&& r.mask → r = q

theorem Row.hits_iff {n : Nat} {r : Row n} {w : BitVec n} : r.hits w = true ↔ w &&& r.mask = r.matchBits :=
  beq_iff_eq

theorem Row.agree_of_hits {n : Nat} {r q : Row n} {w : BitVec n} (hr : r.hits w = true) (hq : q.hits w = true) :
    r.matchBits &&& q.mask = q.matchBits &&& r.mask := by
  rw [← Row.hits_iff.1 hr, ← Row.hits_iff.1 hq, BitVec.and_assoc, BitVec.and_assoc, BitVec.and_comm r.mask]

/-- In a disjoint table with one row to a mnemonic, a word that the row `name` hits is the operation `name`. -/
theorem rows_select {n : Nat} {table : List (Row n)} {w : BitVec n} {name : String} (disjoint : DisjointRows table)
    (named : ∀ r ∈ table, ∀ q ∈ table, r.mnemonic = q.mnemonic → r = q)
    (hit : ∃ r ∈ table, r.mnemonic = name ∧ r.hits w = true) :
    (∀ r ∈ table, r.hits w = true ↔ name = r.mnemonic) ∧ (∃ r ∈ table, r.hits w = true) ∧
    (∀ r ∈ table, ∀ q ∈ table, r.hits w = true → q.hits w = true → r = q) := by
  have unique : ∀ r ∈ table, ∀ q ∈ table, r.hits w = true → q.hits w = true → r = q :=
    fun r hr q hq rw qw => disjoint r hr q hq (Row.agree_of_hits rw qw)
  obtain ⟨p, hp, rfl, pw⟩ := hit
  refine ⟨fun r hr => ⟨fun rw => ?_, fun same => ?_⟩, ⟨p, hp, pw⟩, unique⟩
  · rw [unique p hp r hr pw rw]
  · rwa [← named p hp r hr same]

/-! ## Selectors (R76) -/

/-- Settles O5: the row of the decoded micro-operation hits each of the 32 selectors, and the rows are disjoint. -/
theorem selectorRowsSelectTheMicroOperation : Obligations.SelectorRowsSelectTheMicroOperation := by
  have disjoint : DisjointRows selTable := by unfold DisjointRows; decide
  have hit : ∀ q : BitVec 5, ∃ r ∈ selTable, r.mnemonic = (decodeSel q).mnemonic ∧ r.hits q = true := by decide
  exact fun q => rows_select disjoint (by decide) (hit q)

/-! ## Access words (R75) -/

/-- The word of every well-formed instruction is hit by the row of its mnemonic. -/
theorem encode_inTable : ∀ i : Instr, i.WellFormed → Laws.InTable i.mnemonic (encode i)
  | .start v => Laws.TableRow.start v
  | .ctrlnop v => Laws.TableRow.ctrlnop v
  | .wrlenlo v => Laws.TableRow.wrlenlo v
  | .wrlenhi v => Laws.TableRow.wrlenhi v
  | .rdctrl => Laws.TableRow.rdctrl
  | .rdstatus => Laws.TableRow.rdstatus
  | .rdlenlo => Laws.TableRow.rdlenlo
  | .rdlenhi => Laws.TableRow.rdlenhi
  | .rddig0 => Laws.TableRow.rddig0
  | .rddig1 => Laws.TableRow.rddig1
  | .rddig2 => Laws.TableRow.rddig2
  | .rddig3 => Laws.TableRow.rddig3
  | .rddig4 => Laws.TableRow.rddig4
  | .wrstatus v => Laws.TableRow.wrstatus v
  | .wrdig03 r v => Laws.TableRow.wrdig03 r v
  | .wrdig4 v => Laws.TableRow.wrdig4 v
  | .rdrsv9 => Laws.TableRow.rdrsv9
  | .rdrsv10to11 r => Laws.TableRow.rdrsv10to11 r
  | .rdrsv12to15 r => Laws.TableRow.rdrsv12to15 r
  | .wrrsv9 v => Laws.TableRow.wrrsv9 v
  | .wrrsv10to11 r v => Laws.TableRow.wrrsv10to11 r v
  | .wrrsv12to15 r v => Laws.TableRow.wrrsv12to15 r v
  | .idle => Laws.TableRow.idle
  | .ldblk => Laws.TableRow.ldblk
  | .wld => Laws.TableRow.wld
  | .wxp => Laws.TableRow.wxp
  | .winit => Laws.TableRow.winit
  | .rnd0 => Laws.TableRow.rnd0
  | .rnd1 => Laws.TableRow.rnd1
  | .rnd2 => Laws.TableRow.rnd2
  | .rnd3 => Laws.TableRow.rnd3
  | .hacc => Laws.TableRow.hacc
  | .dser => Laws.TableRow.dser

/-- A row tests the bits 36:32 alone, or it demands bit 36. -/
theorem hawTable_tests : ∀ r ∈ hawTable,
    (r.matchBits = r.matchBits.extractLsb' 32 5 ++ (0 : Word) ∧ r.mask = r.mask.extractLsb' 32 5 ++ (0 : Word)) ∨
    r.matchBits.getLsbD 36 = true := by decide

/-- No row tests the `data` field of an RD. -/
theorem hits_of_hits_rdWord {w : BitVec 37} (h : hawWe w = false) {r : Row 37} (hr : r ∈ hawTable)
    (hit : r.hits (mkHaw 0 (hawReg w) 0) = true) : r.hits w = true := by
  have sameTop : hawTop (mkHaw 0 (hawReg w) 0) = hawTop w := by rw [Laws.hawTop_mkHaw, hawTop_eq, h]; rfl
  rw [Row.hits_iff] at hit ⊢
  rcases hawTable_tests r hr with ⟨hm, hk⟩ | demands
  · rw [hm, hk, top_test] at hit ⊢
    rwa [← sameTop]
  · have isRd : hawWe (mkHaw 0 (hawReg w) 0) = false := hawWe_mkHaw_zero _ _
    rw [← hit, BitVec.getLsbD_and, Bool.and_eq_true] at demands
    cases isRd.symm.trans demands.1

theorem row_of_decodeHaw_hits (w : BitVec 37) :
    ∃ r ∈ hawTable, r.mnemonic = (decodeHaw w).mnemonic ∧ r.hits w = true := by
  obtain ⟨wellFormed, word⟩ := decode_wellFormed_and_encode (.haw w)
  have inTable := encode_inTable _ wellFormed
  rw [word] at inTable
  cases h : hawWe w with
  | true => rwa [canonical_of_write h] at inTable
  | false =>
    rw [canonical_of_read h] at inTable
    obtain ⟨r, hr, name, hit⟩ := inTable
    exact ⟨r, hr, name, hits_of_hits_rdWord h hr hit⟩

theorem hawTable_disjoint : DisjointRows hawTable := by unfold DisjointRows; decide

theorem hawTable_named : ∀ r ∈ hawTable, ∀ q ∈ hawTable, r.mnemonic = q.mnemonic → r = q := by decide

/-- Settles O4: the row of the decoded operation hits the word, as it hits the operation's own word, and the rows
are disjoint. -/
theorem hostRowsSelectTheOperation : Obligations.HostRowsSelectTheOperation :=
  have select := fun w => rows_select hawTable_disjoint hawTable_named (row_of_decodeHaw_hits w)
  ⟨fun w => (select w).1, fun w => (select w).2.1, fun w => (select w).2.2⟩

end Sys2Proof
end

section
/-! PROOFS. The fields of the two formats (30_encoding.md R71, R74), sample words, and the word that is placed for
the next step (log 5). -/

namespace Sys2Proof.Machine

/-! ## The access word (R71) -/

theorem mkHaw_toNat (e : BitVec 1) (r : BitVec 4) (v : Word) :
    (mkHaw e r v).toNat = e.toNat * 2 ^ 36 + r.toNat * 2 ^ 32 + v.toNat := by
  simp only [mkHaw, toNat_append_eq_mul_add]
  omega

theorem decodeHaw_rd (r : BitVec 4) (v : Word) : decodeHaw (mkHaw 0 r v) = decodeRead r := by
  simp [decodeHaw]

theorem decodeHaw_wr (r : BitVec 4) (v : Word) : decodeHaw (mkHaw 1 r v) = decodeWrite r v := decode_wrWord r v

theorem decodeRead_isRead : ∀ r : BitVec 4, (decodeRead r).isRead = true := by decide

theorem decodeWrite_isRead (r : BitVec 4) (v : Word) : (decodeWrite r v).isRead = false := by
  unfold decodeWrite
  split
  · split <;> rfl
  all_goals rfl

/-- Settles O7: a word is the append of its fields, which is a positional sum, and the decoder of reads takes the
register number alone. -/
theorem accessWordIsItsFields : Obligations.AccessWordIsItsFields := by
  refine ⟨fun w => ?_, mkHaw_toNat, fun r v => ⟨?_, ?_⟩, fun r v x => ?_⟩
  · have fields := mkHaw_toNat (BitVec.ofBool (hawWe w)) (hawReg w) (hawData w)
    rwa [mkHaw_fields, BitVec.toNat_ofBool] at fields
  · rw [decodeHaw_rd, decodeRead_isRead]
  · rw [decodeHaw_wr, decodeWrite_isRead]
  · rw [decodeHaw_rd, decodeHaw_rd]

/-! ## The selector (R74) -/

theorem group_toNat (t : Fin 80) : (group t).toNat = t.val / 20 := by
  rw [group, BitVec.toNat_ofNat]
  omega

/-- Settles O6: the two fields of an append, and the decoder on the selectors of each PHASE code. -/
theorem selectorIsPhaseAndGroup : Obligations.SelectorIsPhaseAndGroup := by
  refine ⟨fun s => ⟨sel_code _ _, ?_, by omega⟩, by decide, by decide⟩
  rw [sel, sel_group, group_toNat]

/-- Settles O8: each of the twelve fixed words is evaluated. -/
theorem sampleWordsDecode : Obligations.SampleWordsDecode := by
  unfold Obligations.SampleWordsDecode
  decide

/-! ## A placed word (log 5) -/

theorem code_ofCode : ∀ c : BitVec 3, (Phase.ofCode c).code = c := by decide

theorem group_indexIn (p : Phase) (g : BitVec 2) (t : Fin 80) : group (indexIn p g t) = g := by
  unfold indexIn
  split
  · next inGroup => exact inGroup.1
  · split
    · next least => rw [least.2]; rfl
    · exact (by decide : ∀ g : BitVec 2, group ⟨20 * g.toNat, _⟩ = g) g

theorem selector_fields : ∀ q : BitVec 5, q.extractLsb' 2 3 ++ q.extractLsb' 0 2 = q := by decide

/-- The sequencer of a state with a selector placed selects that selector. -/
theorem sel_placeWord (q : BitVec 5) (s : State) : sel (placeWord (.sel q) s) = q := by
  rw [sel, placeWord, code_ofCode, group_indexIn, selector_fields]

theorem step_placeWord_haw (w : BitVec 37) (s : State) : step (placeWord (.haw w) s) = exec (decodeHaw w) s :=
  step_host (nextTurn_cons rfl)

theorem step_placeWord_sel (q : BitVec 5) (s : State) :
    step (placeWord (.sel q) s) = exec (decodeSel q) (popTurn (placeWord (.sel q) s)) := by
  rw [step_engine (nextTurn_cons rfl), microOp, sel_placeWord]

theorem readWord_of_decodeTableWord {nbits w : Nat} {i : Instr} (h : decodeTableWord nbits w = some i) :
    ∃ x, readWord (tableFormat nbits) w = .ok x ∧ decode x = i := by
  unfold decodeTableWord at h
  split at h
  · next x read => exact ⟨x, read, Option.some.inj h⟩
  · cases h

theorem withFetchWord_of_readWord {nbits w : Nat} {x : AccessWord} (h : readWord (tableFormat nbits) w = .ok x)
    (s : State) : s.withFetchWord nbits w = placeWord x s := by
  rw [State.withFetchWord, h]

/-- Settles O10: an access word is the turn that the step takes off again; a selector moves PHASE and T to where the
sequencer selects it, and the engine's turn is taken off. -/
theorem placedWordIsExecutedNext : Obligations.PlacedWordIsExecutedNext := by
  intro s nbits w i h
  obtain ⟨x, read, rfl⟩ := readWord_of_decodeTableWord h
  rw [withFetchWord_of_readWord read]
  cases x with
  | haw w =>
    have notEngine : (decodeHaw w).agent ≠ .engine := by rw [decodeHaw_agent]; nofun
    exact ⟨s, step_placeWord_haw w s, rfl, fun _ => rfl, fun engine => absurd engine notEngine⟩
  | sel q =>
    have notHost : (decodeSel q).agent ≠ .host := by rw [decodeSel_agent]; nofun
    refine ⟨popTurn (placeWord (.sel q) s), step_placeWord_sel q s, rfl, fun host => absurd host notHost, fun _ => ?_⟩
    rw [microOp_popTurn, microOp, sel_placeWord, decode]

end Sys2Proof.Machine
end

section
/-! PROOFS. The step lemmas of a run (40_host_operations.md R90, R104; 44_finalization.md R151, R152): what one turn
adds to the contract and what it takes off the micro-operations left. -/

namespace Sys2Proof.Machine

/-- Settles O55: every turn but the engine's in DSER goes on computing the contract, and that one ends the run with
its digest. -/
theorem runComputesTheContractStepByStep : Obligations.RunComputesTheContractStepByStep := by
  intro m l s u hw hc hx h
  rcases runComputes_step hw hc hx h with goesOn | ⟨hp, -, rfl⟩
  · exact .inl goesOn
  · have popped : RunComputes m l (popTurn s) := hc
    obtain ⟨-, -, -, -, err, -⟩ := hc
    exact .inr ⟨hp, finishRun_phase _, finishRun_done _, (finishRun_err _).trans err, finishRun_computes hp popped⟩

/-- Settles O54: a turn of the engine takes the first micro-operation left, and the others but reset take none. -/
theorem runProgressesByOneMicroOperation : Obligations.RunProgressesByOneMicroOperation :=
  fun _ _ legal running h =>
    ⟨fun engine => opsLeft_step_engine legal running engine h,
      fun notEngine notReset => opsLeft_step_other running notEngine notReset h⟩

end Sys2Proof.Machine
end

section
/-! PROOFS. What no host operation changes (40_host_operations.md R93, R105; 92_eei_decisions.md D8): reads and busy
accesses move the host's side of the interface alone, and only an accepted START lifts IDLE. -/

namespace Sys2Proof.Machine

/-! ## Reads and busy accesses (R93, D8) -/

theorem agent_of_isRead {i : Instr} (h : i.isRead = true) : i.agent = .host := by
  cases i
  case rdctrl | rdstatus | rdlenlo | rdlenhi | rddig0 | rddig1 | rddig2 | rddig3 | rddig4 | rdrsv9 | rdrsv10to11 |
      rdrsv12to15 => rfl
  all_goals cases h

/-- A host operation is no load, so it completes. -/
theorem exec_host_completes {i : Instr} (hi : i.agent = .host) (s : State) : ∃ u, exec i s = .next u := by
  rcases exec_next_or_missing i s with completes | ⟨rfl, -⟩
  · exact completes
  · cases hi

/-- A read moves the value returned and the counter of free values alone (log 8, 9). -/
theorem exec_read {i : Instr} {s u : State} (hr : i.isRead = true) (h : exec i s = .next u) :
    u = { s with rdValue := u.rdValue, draws := u.draws } := by
  rcases exec_host_cases (agent_of_isRead hr) h with rfl | ⟨⟨v, rfl⟩, -⟩ | ⟨⟨v, rfl⟩ | ⟨v, rfl⟩, -⟩ |
    ⟨-, ⟨v, rfl⟩ | rfl⟩
  case inr.inl | inr.inr.inl.inl | inr.inr.inl.inr => cases hr
  all_goals rfl

/-- The value returned and the counter are no state of the engine. -/
theorem sameEngine_of_hostSide {s u : State} (h : u = { s with rdValue := u.rdValue, draws := u.draws }) :
    SameEngine s u := by
  rw [h]
  simp [SameEngine]

/-- Settles O23: a read, and any host operation of a busy engine, completes and moves the host's side alone. -/
theorem readsAndBusyHostOperationsChangeNothing : Obligations.ReadsAndBusyHostOperationsChangeNothing := by
  refine ⟨fun i s hr => ?_, fun w s hb => ?_⟩
  · obtain ⟨u, h⟩ := exec_host_completes (agent_of_isRead hr) s
    exact ⟨u, h, sameEngine_of_hostSide (exec_read hr h)⟩
  · obtain ⟨u, h⟩ := exec_host_completes (decodeHaw_agent w) s
    exact ⟨u, h, sameEngine_of_hostSide (exec_host_busy (decodeHaw_agent w) ((busy_eq_true s).1 hb) h)⟩

/-! ## IDLE (R105) -/

/-- A START that leaves IDLE is an accepted one. -/
theorem processStart_lifts_idle {s : State} (hp : s.phase = .idle) (hu : (processStart s).phase ≠ .idle) :
    (processStart s).phase = .ldblk ∧ s.len.toNat ≤ maxLen := by
  rcases processStart_cases s with ⟨hb, -⟩ | ⟨-, -, refused⟩ | ⟨-, hl, accepted⟩
  · exact absurd hp hb
  · rw [refused] at hu
    exact absurd hp hu
  · rw [accepted]
    exact ⟨rfl, hl⟩

/-- Settles O24, the last clause by the turn of the step: the idle engine, a reset and a message write leave PHASE
IDLE, and of the host's operations only START writes PHASE. That IDLE is a step at all and leaves the scratch state is
the model's choice (log 4, 10). -/
theorem idleWaitsForAnAcceptedStart : Obligations.IdleWaitsForAnAcceptedStart := by
  refine ⟨by decide, fun _ => rfl, fun s u hp h hu => ?_⟩
  rcases step_agents h with ⟨-, rfl⟩ | ⟨w, ht, he⟩ | ⟨-, rfl⟩ | ⟨j, x, -, rfl⟩
  · have idles : engineNext (popTurn s) = popTurn s := by simp only [engineNext, popTurn_phase, hp]
    rw [idles] at hu
    exact absurd hp hu
  · by_cases starts : ∃ v, decodeHaw w = .start v
    · obtain ⟨v, decodes⟩ := starts
      rw [decodes] at he
      obtain rfl : processStart (popTurn s) = u := Host.Outcome.next.inj he
      obtain ⟨phase, len⟩ := processStart_lifts_idle (s := popTurn s) hp hu
      exact ⟨phase, len, w, ht, v, decodes⟩
    · obtain ⟨-, -, phase, -⟩ := exec_host_control (decodeHaw_agent w) (fun v hv => starts ⟨v, hv⟩) he
      exact absurd (phase.trans hp) hu
  · exact absurd rfl hu
  · exact absurd hp hu

end Sys2Proof.Machine
end

section
/-! PROOFS. The operation of a word that matches a row of one register (30_encoding.md R75): the mask reads the fields
`we` and `reg`, and for CTRL bit 0 of `data`. -/

namespace Sys2Proof

theorem top_fields_injective : ∀ (d e : Bool) (q r : BitVec 4),
    BitVec.ofBool d ++ q = BitVec.ofBool e ++ r → d = e ∧ q = r := by decide

theorem fields_of_top {w : BitVec 37} {e : Bool} {r : BitVec 4} (h : hawTop w &&& 0x1F = BitVec.ofBool e ++ r) :
    hawWe w = e ∧ hawReg w = r := by
  have whole : hawTop w &&& 0x1F = hawTop w := BitVec.and_allOnes
  rw [whole, hawTop_eq] at h
  exact top_fields_injective _ _ _ _ h

theorem fields_of_row {w : BitVec 37} {e : Bool} {r : BitVec 4}
    (h : w &&& 0x1F00000000 = (BitVec.ofBool e ++ r) ++ (0 : Word)) : hawWe w = e ∧ hawReg w = r :=
  fields_of_top ((top_test w (BitVec.ofBool e ++ r) 0x1F).1 h)

theorem decodeHaw_of_write {w : BitVec 37} (h : hawWe w = true) :
    decodeHaw w = decodeWrite (hawReg w) (hawData w) := by
  simp [decodeHaw, h]

/-- The row of the RD of register `r`. -/
theorem decodeHaw_of_read_row (r : BitVec 4) {w : BitVec 37}
    (h : w &&& 0x1F00000000 = (BitVec.ofBool false ++ r) ++ (0 : Word)) : decodeHaw w = decodeRead r := by
  obtain ⟨reads, reg⟩ := fields_of_row h
  rw [decodeHaw_of_read reads, reg]

/-- The row of the WR of register `r`. -/
theorem decodeHaw_of_write_row (r : BitVec 4) {w : BitVec 37}
    (h : w &&& 0x1F00000000 = (BitVec.ofBool true ++ r) ++ (0 : Word)) :
    decodeHaw w = decodeWrite r (hawData w) := by
  obtain ⟨writes, reg⟩ := fields_of_row h
  rw [decodeHaw_of_write writes, reg]

theorem decodeWrite_ctrl (v : Word) : decodeWrite 0 v = if v.getLsbD 0 then .start v else .ctrlnop v := rfl

theorem hawData_bit_zero (w : BitVec 37) : (hawData w).getLsbD 0 = w.getLsbD 0 := by
  simp [hawData]

/-- The two rows of the WR of CTRL, by bit 0 of `data` (R94, R95). -/
theorem decodeHaw_of_ctrl_row (b : Bool) {w : BitVec 37}
    (h : w &&& 0x1F00000001 = (0x10 : BitVec 5) ++ (BitVec.ofBool b).zeroExtend 32) :
    decodeHaw w = if b then .start (hawData w) else .ctrlnop (hawData w) := by
  obtain ⟨top, bit⟩ := (ctrl_test w (BitVec.ofBool b) 0x1F 0x10).1 h
  obtain ⟨writes, reg⟩ := fields_of_top (e := true) (r := 0) top
  have bitZero : w.getLsbD 0 = b := BitVec.ofBool_eq_iff_eq.1 bit
  rw [decodeHaw_of_write writes, reg, decodeWrite_ctrl, hawData_bit_zero, bitZero]

end Sys2Proof
end

section
/-! PROOFS. The host's writes (40_host_operations.md R94 to R97, R103). -/

namespace Sys2Proof.Machine

/-! ## Writes to CTRL (R94, R95) -/

/-- Settles O12: the three outcomes of `processStart`. That an acceptance clears the note of a changed message is the
model's own (log 12). -/
theorem startIsIgnoredRefusedOrAccepted : Obligations.StartIsIgnoredRefusedOrAccepted :=
  ⟨fun _ row => decodeHaw_of_ctrl_row true row, fun _ _ =>
    ⟨fun hb => congrArg _ (processStart_busy hb), fun hp hl => congrArg _ (processStart_overflow hp hl),
      fun hp hl => congrArg _ (processStart_accepted hp hl)⟩⟩

/-- Settles O15: the row of CTRL with bit 0 clear, whose operation returns the state it is given. -/
theorem ctrlnopHasNoEffect : Obligations.CtrlnopHasNoEffect :=
  ⟨fun _ row => decodeHaw_of_ctrl_row false row, fun _ _ => rfl⟩

/-! ## Writes to LEN (R96, R97) -/

theorem lenLo_mkLen (hi lo : Word) : lenLo (mkLen hi lo) = lo := BitVec.extractLsb'_append_eq_right

theorem lenHi_mkLen (hi lo : Word) : lenHi (mkLen hi lo) = hi := BitVec.extractLsb'_append_eq_left

theorem writeLen_idle {s : State} (h : s.phase = .idle) (l : BitVec 64) : writeLen l s = { s with len := l } := by
  rcases writeLen_cases l s with ⟨hb, -⟩ | ⟨-, e⟩
  · exact absurd h hb
  · exact e

/-- Settles O16: LEN is put together from its old high half and the value. -/
theorem wrlenloWritesTheLowHalf : Obligations.WrlenloWritesTheLowHalf :=
  ⟨fun _ row => decodeHaw_of_write_row 2 row, fun v s =>
    ⟨fun hb => congrArg _ (writeLen_busy hb _), fun hp =>
      ⟨mkLen (lenHi s.len) v, congrArg _ (writeLen_idle hp _), lenLo_mkLen _ _, lenHi_mkLen _ _⟩⟩⟩

/-- Settles O17: LEN is put together from the value and its old low half. -/
theorem wrlenhiWritesTheHighHalf : Obligations.WrlenhiWritesTheHighHalf :=
  ⟨fun _ row => decodeHaw_of_write_row 3 row, fun v s =>
    ⟨fun hb => congrArg _ (writeLen_busy hb _), fun hp =>
      ⟨mkLen v (lenLo s.len), congrArg _ (writeLen_idle hp _), lenHi_mkLen _ _, lenLo_mkLen _ _⟩⟩⟩

/-! ## Read-only and reserved registers (R103, R34) -/

/-- The registers whose writes do nothing, by the rows of R75. -/
theorem unwritable_register_cases : ∀ r : BitVec 4, r = 1 ∨ 4 ≤ r.toNat →
    r = 1 ∨ (4 ≤ r.toNat ∧ r.toNat ≤ 7) ∨ r = 8 ∨ r = 9 ∨ (10 ≤ r.toNat ∧ r.toNat ≤ 11) ∨ 12 ≤ r.toNat := by
  decide

/-- The reserved registers, by the rows of R75. -/
theorem reserved_register_cases : ∀ r : BitVec 4, 9 ≤ r.toNat →
    r = 9 ∨ (10 ≤ r.toNat ∧ r.toNat ≤ 11) ∨ 12 ≤ r.toNat := by decide

theorem exec_write_unwritable {r : BitVec 4} (h : r = 1 ∨ 4 ≤ r.toNat) (v : Word) (s : State) :
    exec (decodeWrite r v) s = .next s := by
  rcases unwritable_register_cases r h with rfl | ⟨h4, h7⟩ | rfl | rfl | ⟨h10, h11⟩ | h12
  · rfl
  · rw [decodeWrite_dig03 v h4 h7]; rfl
  · rfl
  · rfl
  · rw [decodeWrite_rsv10to11 v h10 h11]; rfl
  · rw [decodeWrite_rsv12to15 v h12]; rfl

theorem exec_read_reserved {r : BitVec 4} (h : 9 ≤ r.toNat) (s : State) :
    exec (decodeRead r) s = .next (returnToHost 0 s) := by
  rcases reserved_register_cases r h with rfl | ⟨h10, h11⟩ | h12
  · rfl
  · rw [decodeRead_rsv10to11 r h10 h11]; rfl
  · rw [decodeRead_rsv12to15 r h12]; rfl

/-- Settles O18: the operations one by one, and the words by the register they name. -/
theorem accessesWithoutEffect : Obligations.AccessesWithoutEffect := by
  refine ⟨fun s r v => ⟨rfl, rfl, rfl, rfl, rfl, rfl, rfl, rfl, rfl⟩, fun w s writes reg => ?_,
    fun w s reads reg => ?_⟩
  · rw [decodeHaw_of_write writes, exec_write_unwritable reg]
  · rw [decodeHaw_of_read reads, exec_read_reserved reg, returnToHost]

end Sys2Proof.Machine
end

section
/-! PROOFS. The host's reads (40_host_operations.md R98 to R102). -/

namespace Sys2Proof.Machine

/-! ## CTRL (R98, R30) -/

/-- Settles O19: bit 0 of the data alone selects START or CTRLNOP, and START does not look at the other bits. -/
theorem ctrlReadsZeroAndStartsByBitZero : Obligations.CtrlReadsZeroAndStartsByBitZero := by
  refine ⟨fun _ row => decodeHaw_of_read_row 0 row, fun _ => rfl, fun w s writes reg => ?_⟩
  rw [decodeHaw_of_write writes, reg, decodeWrite_ctrl, apply_ite (exec · s)]
  rfl

/-! ## STATUS (R99, R31) -/

theorem busy_toNat (s : State) : (busy s).toNat = if s.phase = .idle then 0 else 1 := by
  by_cases h : s.phase = .idle
  · rw [(busy_eq_false s).2 h, if_pos h]; rfl
  · rw [(busy_eq_true s).2 h, if_neg h]; rfl

/-- The bits of STATUS are the three flags, BUSY the least (R31). -/
theorem statusWord_toNat (s : State) : (statusWord s).toNat = (busy s).toNat + 2 * s.done.toNat + 4 * s.err.toNat :=
  have bits : ∀ b d e : Bool, ((BitVec.ofBool e ++ BitVec.ofBool d ++ BitVec.ofBool b).zeroExtend 32 : Word).toNat =
      b.toNat + 2 * d.toNat + 4 * e.toNat := by decide
  bits _ _ _

theorem flag_sum_of_exclusive : ∀ b d e : Bool,
    ¬(b = true ∧ d = true) ∧ ¬(b = true ∧ e = true) ∧ ¬(d = true ∧ e = true) →
    b.toNat + 2 * d.toNat + 4 * e.toNat ∈ [0, 1, 2, 4] := by decide

/-- With at most one flag set STATUS is 0 or a single bit (R29, R31). -/
theorem statusWord_of_flagsExclusive {s : State} (h : FlagsExclusive s) :
    statusWord s = 0 ∨ statusWord s = 1 ∨ statusWord s = 2 ∨ statusWord s = 4 := by
  have value := flag_sum_of_exclusive _ _ _ h
  simp only [← statusWord_toNat, List.mem_cons, List.not_mem_nil, or_false] at value
  simp only [← BitVec.toNat_inj]
  exact value

/-- Settles O20: the number of the three flag bits; at reset all of them are 0. -/
theorem statusReadsTheFlags : Obligations.StatusReadsTheFlags :=
  ⟨fun _ row => decodeHaw_of_read_row 1 row, fun s =>
    ⟨statusWord s, rfl, by rw [statusWord_toNat, busy_toNat], statusWord_of_flagsExclusive⟩,
    fun _ _ => rfl, rfl⟩

/-! ## LEN (R100, R101) -/

/-- Settles O21: the rows of LEN_LO and LEN_HI, whose operations return the halves of LEN. -/
theorem lengthReadsReturnItsHalves : Obligations.LengthReadsReturnItsHalves :=
  ⟨fun _ row => decodeHaw_of_read_row 2 row, fun _ row => decodeHaw_of_read_row 3 row, fun _ => rfl, fun _ => rfl⟩

/-! ## DIGEST0 to DIGEST4 (R102) -/

theorem readDigest_done {s : State} (h : s.done = true) (k : Fin 5) :
    readDigest k s = returnToHost (digestWord s.digest k) s := by
  rw [readDigest, if_pos h]

theorem readDigest_not_done {s : State} (h : s.done = false) (k : Fin 5) : readDigest k s = returnFree s := by
  rw [readDigest, if_neg (by simp [h])]

/-- Settles O22: each of the five operations is the digest read of its word, which tests DONE. The counter that a
free value is drawn with is the model's own (log 8). -/
theorem digestReadsReturnWordsOrAnyValue : Obligations.DigestReadsReturnWordsOrAnyValue := by
  refine ⟨fun w => ⟨decodeHaw_of_read_row 4, decodeHaw_of_read_row 5, decodeHaw_of_read_row 6,
    decodeHaw_of_read_row 7, decodeHaw_of_read_row 8⟩, fun p hp s => ?_⟩
  have reads : exec p.1 s = .next (readDigest p.2 s) := by
    simp only [List.mem_cons, List.not_mem_nil, or_false] at hp
    rcases hp with rfl | rfl | rfl | rfl | rfl <;> rfl
  rw [reads]
  exact ⟨fun hd => congrArg _ (readDigest_done hd p.2), fun hd => congrArg _ (readDigest_not_done hd p.2)⟩

end Sys2Proof.Machine
end

section
/-! PROOFS. The digest of the empty message (40_host_operations.md R91 item 4, 95_test_vectors.md V1). -/

namespace Sys2Proof.Machine

/-- The hash state after the one block of the empty message, evaluated in the kernel on a message space of zeros. -/
theorem hashBlocks_empty : hashBlocks (fun _ => 0) 0 1 =
    #v[0xda39a3ee, 0x5e6b4b0d, 0x3255bfef, 0x95601890, 0xafd80709] := by decide +kernel

/-- Settles O40: no byte of the message is read, so the message space may be taken to be all zeros. The initial hash
values are the spec's (log 1). -/
theorem emptyMessageHasTheKnownDigest : Obligations.EmptyMessageHasTheKnownDigest := by
  intro m
  have noByte : ∀ j, j < 0 → m j = 0 := fun j hj => absurd hj j.not_lt_zero
  have oneBlock : nblk 0 = 1 := rfl
  rw [digestOf_congr noByte, digestOf, oneBlock, hashBlocks_empty]
  decide

end Sys2Proof.Machine
end

section
/-! PROOFS. The padded message and the load of one of its blocks (41_padding_and_blocks.md R110 to R114). -/

namespace Sys2Proof.Machine

/-! ## The block count (R110) -/

/-- A number of blocks holds the message, the marker and the length exactly when it is NBLK or more. -/
theorem nblk_le_iff {l n : Nat} : nblk l ≤ n ↔ l + 9 ≤ 64 * n := by
  unfold nblk
  omega

theorem nblk_eq_succ_iff {l n : Nat} : nblk l = n + 1 ↔ 64 * n < l + 9 ∧ l + 9 ≤ 64 * (n + 1) := by
  rw [← nblk_le_iff, ← Nat.not_le, ← nblk_le_iff]
  omega

/-- Settles O34: NBLK is the least number of blocks that holds `L + 9` bytes, which also gives the listed values. -/
theorem blockCountIsTheSmallest : Obligations.BlockCountIsTheSmallest := by
  refine ⟨fun _ => rfl, fun l => ⟨le_nblk l, fun n => nblk_le_iff.2⟩, fun l => ⟨?_, ?_, ?_⟩, rfl⟩
  · exact fun high => nblk_eq_succ_iff.2 (by omega)
  · exact fun low high => nblk_eq_succ_iff.2 (by omega)
  · exact fun low high => nblk_eq_succ_iff.2 (by omega)

/-! ## The four parts of the padded message (R111) -/

theorem padByte_message {l j : Nat} (m : Nat → Byte) (h : j < l) : padByte m l j = m j := if_pos h

theorem padByte_marker (m : Nat → Byte) (l : Nat) : padByte m l l = 0x80 := by simp [padByte]

theorem padByte_zeros {l j : Nat} (m : Nat → Byte) (past : l < j) (before : j < 64 * nblk l - 8) :
    padByte m l j = 0x00 := by
  rw [padByte, if_neg (by omega), if_neg (by omega), if_pos before]

/-- The length field begins past the marker. -/
theorem padByte_length (m : Nat → Byte) (l k : Nat) : padByte m l (64 * nblk l - 8 + k) = byteBe (8 * l) 8 k := by
  have room := le_nblk l
  rw [padByte, if_neg (by omega), if_neg (by omega), if_neg (by omega), Nat.add_sub_cancel_left]

/-! ## The length field (R11, R112) -/

/-- Past its most significant byte, a big-endian value of `n + 1` bytes is one of `n` bytes. -/
theorem byteBe_succ (v n k : Nat) : byteBe v (n + 1) (k + 1) = byteBe v n k := by
  rw [byteBe, byteBe, show n + 1 - 1 - (k + 1) = n - 1 - k by omega]

/-- The positional sum of the `n` big-endian bytes of `v` is `v` modulo `2^(8*n)`. -/
theorem sum_byteBe (v n : Nat) :
    ((List.range n).map fun k => (byteBe v n k).toNat * 2 ^ (8 * (n - 1 - k))).sum = v % 2 ^ (8 * n) := by
  induction n with
  | zero => simp [Nat.mod_one]
  | succ n ih =>
    have lower : ∀ k, (byteBe v (n + 1) (k + 1)).toNat * 2 ^ (8 * (n + 1 - 1 - (k + 1))) =
        (byteBe v n k).toNat * 2 ^ (8 * (n - 1 - k)) := fun k => by
      rw [byteBe_succ, show n + 1 - 1 - (k + 1) = n - 1 - k by omega]
    have top : (byteBe v (n + 1) 0).toNat = v / 2 ^ (8 * n) % 2 ^ 8 := byteBe_toNat v (n + 1) 0
    rw [List.range_succ_eq_map, List.map_cons, List.map_map, List.sum_cons, Function.comp_def]
    simp only [Nat.succ_eq_add_one, lower]
    rw [ih, top, Nat.mul_succ, Nat.pow_add, Nat.mod_mul, Nat.add_sub_cancel, Nat.sub_zero, Nat.add_comm,
      Nat.mul_comm (2 ^ (8 * n))]

/-- Settles O35: the parts of the padded message one by one; `8 * L` fits the 8 bytes of the length field. -/
theorem paddedMessageProperties : Obligations.PaddedMessageProperties := by
  intro m l hl
  have fits : 8 * l < 2 ^ (8 * 8) := by unfold maxLen at hl; omega
  refine ⟨by omega, fun j => padByte_message m, padByte_marker m l, ?_, fun j => padByte_zeros m, le_nblk l,
    nblk_le l⟩
  simp only [padByte_length]
  exact (sum_byteBe (8 * l) 8).trans (Nat.mod_eq_of_lt fits)

/-! ## The load of a block (R114) -/

theorem exec_ldblk_eq_next_iff {s u : State} : exec .ldblk s = .next u ↔ missingOffset s = none ∧ u = loadBlock s := by
  simp only [exec, execLdblk]
  cases missingOffset s with
  | none => simp [eq_comm]
  | some j => simp

theorem loadBlock_of_legal {s : State} (hl : s.len.toNat ≤ maxLen) (hb : s.bi.toNat < nblk s.len.toNat) :
    loadBlock s = { s with blk := messageBlock s.msg.read s.len.toNat s.bi.toNat, phase := .wld } := by
  rw [← loadBlock_computes (fun _ _ => rfl) hl hb, loadBlock, blockStated_of_legal hl hb, if_pos rfl]

/-- The block's offsets below the length are an interval. -/
theorem blockReads_eq_range' (l b : Nat) :
    blockReads l b = List.range' (64 * b) (min l (64 * b + 64) - 64 * b) := by
  have block : (List.range 64).map (64 * b + ·) = List.Ico (64 * b) (64 * b + 64) := by
    rw [← List.range'_eq_map_range, List.Ico, Nat.add_sub_cancel_left]
  rw [blockReads, block, List.Ico.filter_lt, List.Ico, min_comm]

/-- A byte of the block depends on the message space at the offsets that the load reads alone. -/
theorem blockByte_congr {s : State} {m : Memory} {k : Nat} (hk : k < 64)
    (h : ∀ j ∈ blockReads s.len.toNat s.bi.toNat, m.read j = s.msg.read j) :
    blockByte { s with msg := m } k = blockByte s k := by
  have padded : padByte m.read s.len.toNat (64 * s.bi.toNat + k) =
      padByte s.msg.read s.len.toNat (64 * s.bi.toNat + k) := by
    by_cases inMessage : 64 * s.bi.toNat + k < s.len.toNat
    · rw [padByte_message _ inMessage, padByte_message _ inMessage]
      exact h _ (mem_blockReads.2 (by omega))
    · simp only [padByte, if_neg inMessage]
  simp only [blockByte, padded]

theorem loadBlock_congr {s : State} {m : Memory}
    (h : ∀ j ∈ blockReads s.len.toNat s.bi.toNat, m.read j = s.msg.read j) :
    loadBlock { s with msg := m } = { loadBlock s with msg := m } := by
  have bytes : (fun k : Fin 64 => blockByte { s with msg := m } k.val) = fun k => blockByte s k.val :=
    funext fun k => blockByte_congr k.isLt h
  rw [loadBlock, bytes]
  rfl

theorem decodeSel_ldblk : ∀ q : BitVec 5, q &&& 0x1C = 0x04 → decodeSel q = .ldblk := by decide

/-- Settles O25: the 32 selectors, the block of an accepted length with no missing offset, the interval of offsets
read, and a load that takes from the message space what it reads there alone. That the reads are a list beside the
atomic step is the model's choice (log 22). -/
theorem ldblkLoadsThePaddedBlock : Obligations.LdblkLoadsThePaddedBlock := by
  refine ⟨decodeSel_ldblk, fun s _ hl hb => ?_, blockReads_eq_range', fun s m u h hu => ?_⟩
  · exact exec_ldblk_eq_next_iff.2 ⟨missingOffset_none hl, (loadBlock_of_legal hl hb).symm⟩
  · obtain ⟨present, rfl⟩ := exec_ldblk_eq_next_iff.1 hu
    exact exec_ldblk_eq_next_iff.2 ⟨present, (loadBlock_congr h).symm⟩

end Sys2Proof.Machine
end

section
/-! PROOFS. The word schedule (42_word_schedule.md R120 to R122). -/

namespace Sys2Proof.Machine

/-! ## WLD (R120) -/

theorem decodeSel_wld : ∀ q : BitVec 5, q &&& 0x1C = 0x08 → decodeSel q = .wld := by decide

theorem loadWords_of_lt (blk : Vector Byte 64) (w : Vector Word 80) {i : Nat} (h : i < 16) :
    (loadWords blk w)[i] = blockWord blk i h := by
  simp [loadWords, h]

theorem loadWords_of_le (blk : Vector Byte 64) (w : Vector Word 80) {i : Nat} (h : 16 ≤ i) (hi : i < 80) :
    (loadWords blk w)[i] = w[i] := by
  simp [loadWords, Nat.not_lt.2 h]

theorem blockWord_toNat (blk : Vector Byte 64) {i : Nat} (h : i < 16) :
    (blockWord blk i h).toNat = blk[4 * i].toNat * 2 ^ 24 + blk[4 * i + 1].toNat * 2 ^ 16 +
      blk[4 * i + 2].toNat * 2 ^ 8 + blk[4 * i + 3].toNat :=
  be32_toNat _ _ _ _

/-- Settles O27: the schedule that WLD leaves is `loadWords`, word by word. -/
theorem wldLoadsTheBlockWords : Obligations.WldLoadsTheBlockWords := by
  refine ⟨decodeSel_wld, fun s _ => ⟨loadWords s.blk s.w, rfl, fun t => ?_, fun t ht => ?_⟩⟩
  · rw [loadWords_of_lt _ _ t.isLt, blockWord_toNat]
  · exact loadWords_of_le _ _ ht t.isLt

/-! ## WXP (R121) -/

theorem decodeSel_wxp : ∀ q : BitVec 5, q &&& 0x1C = 0x0C → decodeSel q = .wxp := by decide

/-- With all four taps inside the schedule no free value is drawn. -/
theorem writeExpanded_of_le {s : State} (h : 16 ≤ s.t.val) :
    writeExpanded s = { s with w := s.w.set s.t.val (expandedWord s) } := by
  simp only [writeExpanded, if_pos h]

/-- Settles O28: WXP writes the rule's word, and then moves the index by its two cases. -/
theorem wxpExpandsOneWord : Obligations.WxpExpandsOneWord := by
  refine ⟨decodeSel_wxp, fun s _ ht => ⟨expandedWord s, expandedWord_of_le ht, ?_⟩⟩
  have runs : exec .wxp s = .next (advanceIndex .winit { s with w := s.w.set s.t.val (expandedWord s) }) := by
    rw [← writeExpanded_of_le ht]
    rfl
  refine ⟨fun last => ?_, fun below => ?_⟩
  · rw [runs, advanceIndex_of_last]
    exact last
  · rw [runs, advanceIndex_of_lt]
    exact below

/-! ## The schedule of a block of zeros (R122) -/

theorem blockWord_zeros {i : Nat} (h : i < 16) : blockWord (Vector.replicate 64 0) i h = 0 := by
  simp only [blockWord, Vector.getElem_replicate]
  rfl

/-- Words 0 to 15 are the block's zeros, and the rotation of an exclusive or of zeros is zero again. -/
theorem scheduleOf_zeros (i : Nat) (hi : i < 80) : (scheduleOf (Vector.replicate 64 0))[i] = 0 := by
  induction i using Nat.strong_induction_on with
  | _ i earlier =>
    by_cases low : i < 16
    · rw [scheduleOf_low _ low, blockWord_zeros]
    · rw [scheduleOf_high _ (Nat.not_lt.1 low) hi, nextWord, earlier (i - 3) (by omega), earlier (i - 8) (by omega),
        earlier (i - 14) (by omega), earlier (i - 16) (by omega)]
      rfl

/-- Settles O39: by induction along the words. -/
theorem zeroBlockHasZeroSchedule : Obligations.ZeroBlockHasZeroSchedule :=
  Vector.ext fun i hi => by rw [scheduleOf_zeros i hi, Vector.getElem_replicate]

end Sys2Proof.Machine
end

section
/-! PROOFS. The compression of a block (43_compression.md R130 to R137) and the transitions of the sequencer
(R138). -/

namespace Sys2Proof.Machine

/-! ## WINIT (R130) -/

theorem decodeSel_winit : ∀ q : BitVec 5, q &&& 0x1C = 0x10 → decodeSel q = .winit := by decide

theorem exec_winit (s : State) : exec .winit s = .next (initWorking s) := rfl

/-- Settles O29: the selectors of WINIT, whose state `initWorking` is the rule's, register by register. -/
theorem winitLoadsTheWorkingRegisters : Obligations.WinitLoadsTheWorkingRegisters :=
  ⟨decodeSel_winit, fun s _ => exec_winit s⟩

/-! ## RND0 to RND3 (R131 to R136) -/

theorem exec_of_roundOf {i : Instr} {f : Word → Word → Word → Word} {k : Word} (h : roundOf i = some (f, k))
    (s : State) : exec i s = .next (roundStep f k s) := by
  cases i
  case rnd0 | rnd1 | rnd2 | rnd3 =>
    cases h
    rfl
  all_goals cases h

/-- The last round of a block (R132). -/
theorem roundStep_of_last (f : Word → Word → Word → Word) (k : Word) {s : State} (h : s.t.val = 79) :
    roundStep f k s = { s with
      a := roundTemp f k s, b := s.a, c := rotl32 s.b 30, d := s.c, e := s.d, t := 0, phase := .hacc } :=
  advanceIndex_of_last .hacc (shiftRegisters f k s) h

/-- A round that another one follows (R132). -/
theorem roundStep_of_lt (f : Word → Word → Word → Word) (k : Word) {s : State} (h : s.t.val < 79) :
    roundStep f k s = { s with
      a := roundTemp f k s, b := s.a, c := rotl32 s.b 30, d := s.c, e := s.d, t := ⟨s.t.val + 1, by omega⟩ } :=
  advanceIndex_of_lt .hacc (shiftRegisters f k s) h

/-- Settles O30: the four rows are those of `roundOf`, and every one of them is the round step with its function and
its constant, which moves the index by its two cases. -/
theorem roundsShiftTheWorkingRegisters : Obligations.RoundsShiftTheWorkingRegisters := by
  refine ⟨⟨rfl, rfl, rfl, rfl⟩, fun p hp s _ => ?_⟩
  have row : roundOf p.1 = some (p.2.1, p.2.2) := by
    simp only [List.mem_cons, List.not_mem_nil, or_false] at hp
    rcases hp with rfl | rfl | rfl | rfl <;> rfl
  rw [exec_of_roundOf row]
  exact ⟨fun last => congrArg _ (roundStep_of_last _ _ last), fun below => congrArg _ (roundStep_of_lt _ _ below)⟩

/-! ## HACC (R137) -/

theorem decodeSel_hacc : ∀ q : BitVec 5, q &&& 0x1C = 0x18 → decodeSel q = .hacc := by decide

theorem exec_hacc (s : State) : exec .hacc s = .next (finishBlock s) := rfl

theorem finishBlock_of_last {s : State} (h : s.bi.toNat + 1 = nblk s.len.toNat) :
    finishBlock s = { s with h := accumulate s, bi := s.bi + 1, phase := .dser } := by
  rw [finishBlock, if_pos h]

theorem finishBlock_of_more {s : State} (h : s.bi.toNat + 1 ≠ nblk s.len.toNat) :
    finishBlock s = { s with h := accumulate s, bi := s.bi + 1, phase := .ldblk } := by
  rw [finishBlock, if_neg h]

/-- Settles O31: the block count does not wrap below NBLK(LEN), and `finishBlock` goes on by its two cases. -/
theorem haccAccumulatesAndChoosesTheNextPhase : Obligations.HaccAccumulatesAndChoosesTheNextPhase := by
  refine ⟨decodeSel_hacc, fun s _ hb => ⟨s.bi + 1, toNat_bi_succ hb, fun last => ?_, fun more => ?_⟩⟩
  · rw [exec_hacc, finishBlock_of_last last]
    rfl
  · rw [exec_hacc, finishBlock_of_more more]
    rfl

/-! ## The transitions of the sequencer (R138) -/

/-- A turn of the engine does what the phase it finds says. -/
theorem step_engine_next {s u : State} (ht : nextTurn s = .engine) (h : step s = .next u) :
    u = engineNext (popTurn s) :=
  exec_microOp_next (s := popTurn s) ((step_engine ht).symm.trans h)

/-- The row of the word loop and of the round loop below the last index. -/
theorem advanceIndex_counts (p : Phase) {s : State} (h : s.t.val < 79) :
    (advanceIndex p s).phase = s.phase ∧ (advanceIndex p s).t.val = s.t.val + 1 ∧ (advanceIndex p s).bi = s.bi := by
  rw [advanceIndex_of_lt p s h]
  exact ⟨rfl, rfl, rfl⟩

/-- The row of the word loop and of the round loop at the last index. -/
theorem advanceIndex_returns (p : Phase) {s : State} (h : s.t.val = 79) :
    (advanceIndex p s).phase = p ∧ (advanceIndex p s).t.val = 0 ∧ (advanceIndex p s).bi = s.bi := by
  rw [advanceIndex_of_last p s h]
  exact ⟨rfl, rfl, rfl⟩

/-- The index is 0 in HACC. -/
theorem t_zero_of_hacc {s : State} (h : SequencerLegal s) (hp : s.phase = .hacc) : s.t.val = 0 := by
  obtain ⟨-, -, -, zero⟩ := h (by simp [hp])
  exact zero (by simp [hp]) (by simp [hp])

/-- The rows of the block loop: BI counts up without wrapping, T stays 0, and the phase is the one that BI + 1 against
NBLK(LEN) chooses. -/
theorem finishBlock_counts {s : State} (h : SequencerLegal s) (hp : s.phase = .hacc) :
    (finishBlock s).phase = (if s.bi.toNat + 1 = nblk s.len.toNat then .dser else .ldblk) ∧
      (finishBlock s).t.val = 0 ∧ (finishBlock s).bi.toNat = s.bi.toNat + 1 :=
  ⟨finishBlock_phase s, t_zero_of_hacc (s := s) h hp,
    toNat_bi_succ (bi_lt_of_legal h (by simp [hp]) (by simp [hp]))⟩

/-- Settles O48: an accepted START is `acceptStart`, and a turn of the engine is `engineNext`, row by row. -/
theorem sequencerTransitions : Obligations.SequencerTransitions := by
  refine ⟨fun v s u hp hl h => ?_, fun s u legal _ turn h => ?_⟩
  · obtain rfl : processStart s = u := Host.Outcome.next.inj h
    rw [processStart_accepted hp hl]
    exact ⟨rfl, rfl, rfl⟩
  obtain rfl := step_engine_next turn h
  have popped : SequencerLegal (popTurn s) := legal
  refine ⟨fun hp => ?ldblk, fun hp => ?wld, fun hp ht => ?wxp, fun hp ht => ?wxpLast, fun hp => ?winit,
    fun hp ht => ?rnd, fun hp ht => ?rndLast, fun hp more => ?hacc, fun hp last => ?haccLast, fun hp => ?dser⟩ <;>
    simp only [engineNext, popTurn_phase, hp]
  case ldblk | wld | winit | dser => simp
  case wxp => simpa [hp] using advanceIndex_counts .winit (s := writeExpanded (popTurn s)) (by simpa using ht)
  case wxpLast => simpa using advanceIndex_returns .winit (s := writeExpanded (popTurn s)) (by simpa using ht)
  case rnd => simpa [roundStep, hp] using advanceIndex_counts .hacc (s := shiftRegisters _ _ (popTurn s)) ht
  case rndLast => exact advanceIndex_returns .hacc (s := shiftRegisters _ _ (popTurn s)) ht
  case hacc => simpa [more.ne] using finishBlock_counts popped hp
  case haccLast => simpa [last] using finishBlock_counts popped hp

end Sys2Proof.Machine
end

section
/-! PROOFS. The end of a run: DSER (44_finalization.md R150), that no step stops (R153, R160), and the whole run from an
accepted START (R151, R152, R190). -/

namespace Sys2Proof.Machine

/-! ## DSER (R150) -/

theorem decodeSel_dser : ∀ q : BitVec 5, q &&& 0x1C = 0x1C → decodeSel q = .dser := by decide

theorem finishRun_of_unchanged {s : State} (h : s.msgChanged = false) :
    finishRun s = { s with digest := serialize s.h, done := true, phase := .idle } := by
  simp [finishRun, h]

/-- Byte `k` of an `n`-byte value, counted from the most significant, is its bits from `8 * (n - 1 - k)` on (R11). -/
theorem byteBe_eq_extractLsb' {w : Nat} (v : BitVec w) (n k : Nat) :
    byteBe v.toNat n k = v.extractLsb' (8 * (n - 1 - k)) 8 := by
  rw [byteBe, ← Nat.shiftRight_eq_div_pow, BitVec.extractLsb']

theorem exec_dser (s : State) : exec .dser s = .next (finishRun s) := rfl

/-- Byte `4i+k` of the digest is byte `k` of `H[i]`, as bits (R150). -/
theorem serialize_getElem_bits (h : Vector Word 5) (i : Fin 5) {k : Nat} (hk : k < 4) :
    (serialize h)[4 * i.val + k]'(by omega) = h[i].extractLsb' (8 * (4 - 1 - k)) 8 :=
  (serialize_getElem h i hk).trans (byteBe_eq_extractLsb' h[i] 4 k)

/-- Settles O32: the 32 selectors, and the state that DSER leaves, whose digest is the serialized `H`. -/
theorem dserSerializesTheDigest : Obligations.DserSerializesTheDigest := by
  refine ⟨decodeSel_dser, fun s _ clean => ⟨serialize s.h, ?_, fun i => ?_⟩⟩
  · rw [exec_dser, finishRun_of_unchanged clean]
  · exact ⟨serialize_getElem_bits s.h i (k := 0) (by omega), serialize_getElem_bits s.h i (k := 1) (by omega),
      serialize_getElem_bits s.h i (k := 2) (by omega), serialize_getElem_bits s.h i (k := 3) (by omega)⟩

/-! ## Steps complete (R153, R160) -/

/-- Settles O52: of the invariant the sequencer's ranges alone are needed. -/
theorem stepsCompleteUnderTheInvariant : Obligations.StepsCompleteUnderTheInvariant :=
  fun _ ⟨_, sequencer, _⟩ => step_completes sequencer

/-! ## The steps of a run -/

/-- A run goes on: the engine is busy, no reset is to come, and the schedule does not outlast the run. -/
structure Running (s : State) : Prop where
  legal : SequencerLegal s
  notIdle : s.phase ≠ .idle
  noReset : .reset ∉ s.sched
  outlasts : s.sched.count .engine < (opsLeft s).length

/-- A run is over, and the schedule with it. -/
structure Ended (s : State) : Prop where
  idle : s.phase = .idle
  done : s.done = true
  used : s.sched = []

theorem Running.nextTurn_ne_reset {s : State} (h : Running s) : nextTurn s ≠ .reset := by
  cases hs : s.sched with
  | nil => simp [nextTurn_nil hs]
  | cons x rest =>
    rw [nextTurn_cons hs]
    rintro rfl
    exact h.noReset (by simp [hs])

theorem Running.stepsLeft_pos {s : State} (h : Running s) : 0 < stepsLeft s := by
  have := h.outlasts
  rw [stepsLeft]
  omega

theorem Ended.stepsLeft_eq_zero {s : State} (h : Ended s) : stepsLeft s = 0 := by
  simp [stepsLeft, opsLeft, h.idle, h.used]

/-- Only DSER leaves the engine idle (R138). -/
theorem phase_of_engineNext_idle {s : State} (hb : s.phase ≠ .idle) (h : (engineNext s).phase = .idle) :
    s.phase = .dser := by
  cases hp : s.phase <;> simp only [engineNext, hp] at h
  case idle => exact absurd hp hb
  case dser => rfl
  case ldblk | wld | winit => simp at h
  case wxp | rnd | hacc =>
    simp only [advanceIndex_phase, writeExpanded_phase, roundStep_phase, finishBlock_phase, hp] at h
    split at h <;> cases h

/-- Only the engine's turn in DSER takes a busy engine to IDLE, a reset excepted. -/
theorem step_to_idle {s u : State} (hb : s.phase ≠ .idle) (hr : nextTurn s ≠ .reset) (h : step s = .next u)
    (hu : u.phase = .idle) : s.phase = .dser ∧ nextTurn s = .engine ∧ u.done = true := by
  rcases step_agents h with ⟨ht, rfl⟩ | ⟨w, -, he⟩ | ⟨ht, -⟩ | ⟨j, x, -, rfl⟩
  · have hp : s.phase = .dser := phase_of_engineNext_idle (s := popTurn s) hb hu
    exact ⟨hp, ht, by simp [engineNext, hp]⟩
  · rw [exec_host_busy (s := popTurn s) (decodeHaw_agent w) hb he] at hu
    exact absurd hu hb
  · exact absurd ht hr
  · exact absurd hu hb

/-- Every step of a run takes one off the steps left, and goes on with the run or ends it. -/
theorem Running.step_goes_on_or_ends {s u : State} (h : Running s) (hu : step s = .next u) :
    stepsLeft s = stepsLeft u + 1 ∧ (Running u ∨ Ended u) := by
  obtain ⟨fewer, outlasts⟩ := stepsLeft_step h.legal h.notIdle h.nextTurn_ne_reset h.outlasts hu
  have pops := step_sched hu
  have legal := sequencerLegal_step h.legal hu
  refine ⟨fewer, ?_⟩
  by_cases hp : u.phase = .idle
  · obtain ⟨dser, engine, done⟩ := step_to_idle h.notIdle h.nextTurn_ne_reset hu hp
    exact .inr ⟨hp, done, by rw [pops, sched_nil_of_last dser engine h.outlasts, List.tail_nil]⟩
  · exact .inl ⟨legal, hp, fun reset => h.noReset (List.mem_of_mem_tail (pops ▸ reset)),
      outlasts (opsLeft_ne_nil legal hp)⟩

/-- A step of a run executes the first of the micro-operations left if it is the engine's, and none else (R104). -/
theorem Running.opsLeft_step {s u : State} (h : Running s) (hu : step s = .next u) :
    opsLeft s = (if nextTurn s = .engine then [microOp s] else []) ++ opsLeft u := by
  split
  · exact opsLeft_step_engine h.legal h.notIdle ‹_› hu
  · exact (opsLeft_step_other h.notIdle ‹_› h.nextTurn_ne_reset hu).symm

/-! ## The steps of a run to its end (R152) -/

/-- The run goes on while steps are left. -/
theorem Running.run_goes_on_or_ends {s : State} (h : Running s) {n : Nat} (hn : n ≤ stepsLeft s) :
    ∃ x, Sys2Proof.core.run n s = .next x ∧ stepsLeft s = stepsLeft x + n ∧ (Running x ∨ Ended x) := by
  induction n generalizing s with
  | zero => exact ⟨s, core_run_zero s, rfl, .inl h⟩
  | succ n ih =>
    obtain ⟨u, hu⟩ := step_completes h.legal
    obtain ⟨fewer, goesOn | ended⟩ := h.step_goes_on_or_ends hu
    · obtain ⟨x, run, left, hx⟩ := ih goesOn (by omega)
      exact ⟨x, (core_run_succ n hu).trans run, by omega, hx⟩
    · have last : n = 0 := by have := ended.stepsLeft_eq_zero; omega
      subst last
      exact ⟨u, core_run_succ 0 hu, fewer, .inr ended⟩

/-- The engine is busy before each of the steps left. -/
theorem Running.busy_before_end {s : State} (h : Running s) {n : Nat} (hn : n < stepsLeft s) :
    ∃ x, Sys2Proof.core.run n s = .next x ∧ busy x = true := by
  obtain ⟨x, run, left, goesOn | ended⟩ := h.run_goes_on_or_ends hn.le
  · exact ⟨x, run, (busy_eq_true x).2 goesOn.notIdle⟩
  · have := ended.stepsLeft_eq_zero
    omega

/-- The run is over after the steps left. -/
theorem Running.ends {s : State} (h : Running s) : ∃ u, Sys2Proof.core.run (stepsLeft s) s = .next u ∧ Ended u := by
  obtain ⟨u, run, left, goesOn | ended⟩ := h.run_goes_on_or_ends le_rfl
  · have := goesOn.stepsLeft_pos
    omega
  · exact ⟨u, run, ended⟩

/-- The micro-operations executed to the end of the run are those that were left (R104). -/
theorem Running.microTrace_stepsLeft {s : State} (h : Running s) : microTrace (stepsLeft s) s = opsLeft s := by
  induction hn : stepsLeft s generalizing s with
  | zero => exact absurd hn h.stepsLeft_pos.ne'
  | succ n ih =>
    obtain ⟨u, hu⟩ := step_completes h.legal
    rw [microTrace_succ n hu, h.opsLeft_step hu]
    obtain ⟨fewer, goesOn | ended⟩ := h.step_goes_on_or_ends hu
    · rw [ih goesOn (by omega)]
    · have last : n = 0 := by have := ended.stepsLeft_eq_zero; omega
      simp [last, microTrace, opsLeft, ended.idle]

/-- While steps are left the run computes the contract (R151). -/
theorem Running.computes {m : Nat → Byte} {l n : Nat} {s x : State} (h : Running s) (hw : s.msg.wf = true)
    (hc : RunComputes m l s) (hx : ∀ x ∈ s.sched, harmless l x = true) (hn : n < stepsLeft s)
    (run : Sys2Proof.core.run n s = .next x) : RunComputes m l x := by
  induction n generalizing s with
  | zero => exact Host.Outcome.next.inj run ▸ hc
  | succ n ih =>
    obtain ⟨u, hu⟩ := step_completes h.legal
    rw [core_run_succ n hu] at run
    obtain ⟨fewer, goesOn | ended⟩ := h.step_goes_on_or_ends hu
    · rcases runComputes_step hw hc (harmless_nextTurn hx) hu with hc' | ⟨-, -, rfl⟩
      · exact ih goesOn (msg_wf_step hw hu) hc' (fun x hm => hx x (List.mem_of_mem_tail (step_sched hu ▸ hm)))
          (by omega) run
      · exact absurd (finishRun_phase _) goesOn.notIdle
    · have := ended.stepsLeft_eq_zero
      omega

/-! ## The run of an accepted START (R151, R152) -/

theorem RunStarts.running {s : State} (h : RunStarts s) (noReset : .reset ∉ s.sched)
    (outlasts : s.sched.count .engine < runLength s.len.toNat) : Running s := by
  obtain ⟨-, -, -, -, -, legal, -⟩ := runComputes_of_runStarts h
  have ⟨phase, _⟩ := h
  exact ⟨legal, by simp [phase], noReset, by rwa [opsLeft_of_runStarts h, length_runOps]⟩

theorem runStarts_acceptStart {s : State} (hl : s.len.toNat ≤ maxLen) (turns : List Turn) :
    RunStarts { acceptStart s with sched := turns } :=
  ⟨rfl, rfl, rfl, rfl, rfl, rfl, rfl, hl⟩

/-- Settles O57: with an empty schedule the steps left are the micro-operations left, one a step. That the engine then
has every turn is the model's choice (log 3). -/
theorem runLengthAndTermination : Obligations.RunLengthAndTermination := by
  intro s hs alone
  have going : Running s := hs.running (by simp [alone]) (by simp [alone, runLength])
  have steps : stepsLeft s = 148 * nblk s.len.toNat + 1 := by simp [stepsLeft_of_runStarts hs, alone, runLength]
  obtain ⟨-, -, blocks, -⟩ := blockCountIsTheSmallest
  obtain ⟨one, two, -⟩ := blocks s.len.toNat
  refine ⟨fun n hn => going.busy_before_end (steps ▸ hn), ?_, ?_, length_blockOps, fun short => ?_,
    fun low high => ?_⟩
  · obtain ⟨u, run, idle, done, -⟩ := going.ends
    exact ⟨u, steps ▸ run, idle, done⟩
  · rw [← steps, going.microTrace_stepsLeft, opsLeft_of_runStarts hs, runOps]
  · rw [one short]
  · rw [two low high]

/-- Settles O56: the run's message is the one at START, and it computes the contract at every step of the run. That the
run ends is the model's choice (log 3). -/
theorem acceptedStartComputesTheDigest : Obligations.AcceptedStartComputesTheDigest := by
  intro v s turns hw hp hl hx hk
  have starts := runStarts_acceptStart hl turns
  refine ⟨acceptStart s, congrArg _ (processStart_accepted hp hl), ?_⟩
  have noReset : .reset ∉ turns := fun reset => by simpa [harmless] using hx _ reset
  have going : Running { acceptStart s with sched := turns } := starts.running noReset hk
  have steps : stepsLeft { acceptStart s with sched := turns } =
      turns.length + (runLength s.len.toNat - turns.count .engine) := stepsLeft_of_runStarts starts
  have computes := runComputes_of_runStarts starts
  rw [← steps]
  refine ⟨run_leaves_digest _ hw computes hx going.outlasts rfl,
    going.microTrace_stepsLeft.trans (opsLeft_of_runStarts starts), fun n x run hn => ?_⟩
  obtain ⟨-, -, -, -, -, -, hash, phase⟩ := going.computes hw computes hx hn run
  exact ⟨fun winit => w_of_wordsComputed ((phaseComputed_winit winit).1 phase), fun _ => hash⟩

end Sys2Proof.Machine
end

section
/-! PROOFS. The exception LengthOverflow and the level outputs (60_exceptions.md R161, R163, R166). -/

namespace Sys2Proof.Machine

/-! ## STATUS and the level outputs (R163) -/

/-- The three low bits of STATUS are the flags (R31). -/
theorem statusWord_bits (s : State) :
    (statusWord s).getLsbD 0 = busy s ∧ (statusWord s).getLsbD 1 = s.done ∧ (statusWord s).getLsbD 2 = s.err := by
  unfold statusWord
  generalize busy s = b, s.done = d, s.err = e
  revert b d e
  decide

/-- Settles O60: each output is its bit of STATUS by definition, and the bit is the flag. -/
theorem levelOutputsEqualTheStatusBits : Obligations.LevelOutputsEqualTheStatusBits :=
  fun s => ⟨rfl, rfl, rfl, statusWord_bits s⟩

/-! ## LengthOverflow (R161) -/

/-- An idle engine that has taken the exception reads as ERR alone. -/
theorem statusWord_raiseLengthOverflow {s : State} (h : s.phase = .idle) :
    statusWord (raiseLengthOverflow s) = 4 := by
  apply BitVec.eq_of_toNat_eq
  rw [statusWord_toNat, busy_toNat, raiseLengthOverflow_phase, if_pos h]
  rfl

/-- Taken twice the exception is as taken once (R166). -/
theorem raiseLengthOverflow_idem (s : State) :
    raiseLengthOverflow (raiseLengthOverflow s) = raiseLengthOverflow s := rfl

theorem exec_start_overflow (v : Word) {s : State} (h : s.phase = .idle) (hl : maxLen < s.len.toNat) :
    exec (.start v) s = .next (raiseLengthOverflow s) :=
  congrArg _ (processStart_overflow h hl)

/-- An instruction that changes ERR is a START of an idle engine: it sets ERR where LEN is above MAXLEN and clears it
where LEN is an accepted length (R94, R161). -/
theorem exec_changes_err {i : Instr} {s u : State} (h : exec i s = .next u) (changed : u.err ≠ s.err) :
    (∃ v, i = .start v) ∧ s.phase = .idle ∧
    ((maxLen < s.len.toNat ∧ u.err = true) ∨ (s.len.toNat ≤ maxLen ∧ u.err = false)) := by
  by_cases starts : ∃ v, i = .start v
  · obtain ⟨v, rfl⟩ := starts
    obtain rfl : processStart s = u := Host.Outcome.next.inj h
    rcases processStart_cases s with ⟨-, ignored⟩ | ⟨hp, hl, refused⟩ | ⟨hp, hl, accepted⟩
    · exact absurd (congrArg State.err ignored) changed
    · exact ⟨⟨v, rfl⟩, hp, .inl ⟨hl, congrArg State.err refused⟩⟩
    · exact ⟨⟨v, rfl⟩, hp, .inr ⟨hl, congrArg State.err accepted⟩⟩
  · obtain ⟨-, -, -, -, -, -, -, err, -⟩ := onlyTheNamedInstructionsWrite i s u h
    exact absurd (err fun v hv => starts ⟨v, hv⟩) changed

/-- Settles O13: the refused START, and of the instructions that change ERR those that set it. -/
theorem lengthOverflowIsRaisedByStartAlone : Obligations.LengthOverflowIsRaisedByStartAlone := by
  refine ⟨fun v s hp hl => ⟨_, exec_start_overflow v hp hl, rfl, statusWord_raiseLengthOverflow hp⟩,
    fun i s u h before after => ?_, rfl⟩
  obtain ⟨start, idle, ⟨long, -⟩ | ⟨-, cleared⟩⟩ := exec_changes_err h (by simp [before, after])
  · exact ⟨start, idle, long⟩
  · simp [after] at cleared

/-! ## ERR stays (R166) -/

/-- An instruction that clears ERR is an accepted START (R94, R166). -/
theorem exec_clears_err {i : Instr} {s u : State} (h : exec i s = .next u) (before : s.err = true)
    (after : u.err = false) : (∃ v, i = .start v) ∧ s.phase = .idle ∧ s.len.toNat ≤ maxLen := by
  obtain ⟨start, idle, ⟨-, set⟩ | ⟨short, -⟩⟩ := exec_changes_err h (by simp [before, after])
  · simp [after] at set
  · exact ⟨start, idle, short⟩

/-- Settles O14, the first clause by the turn of the step: no micro-operation is a START, and a message write leaves the
flags. -/
theorem errStaysUntilAcceptedStartOrReset : Obligations.ErrStaysUntilAcceptedStartOrReset := by
  refine ⟨fun s u h before after => ?_, fun v v' s u hp hl h => ?_⟩
  · rcases step_cases h with ⟨-, he⟩ | ⟨w, turn, he⟩ | ⟨turn, -⟩ | ⟨j, x, -, rfl⟩
    · obtain ⟨⟨v, start⟩, -⟩ := exec_clears_err he before after
      have engine : (microOp s).agent = .engine := decodeSel_agent _
      simp [start, Instr.agent] at engine
    · exact .inr ⟨w, turn, exec_clears_err (s := popTurn s) he before after⟩
    · exact .inl turn
    · simp [before] at after
  · obtain rfl : raiseLengthOverflow s = u := Host.Outcome.next.inj ((exec_start_overflow v hp hl).symm.trans h)
    rw [exec_start_overflow v' (s := raiseLengthOverflow s) hp hl, raiseLengthOverflow_idem]

end Sys2Proof.Machine
end

section
/-! PROOFS. Several engines (60_exceptions.md R171, R172): a step of one moves that one alone, and each keeps
the stream of free values of its place. -/

namespace Sys2Proof.Machine

/-- The system's step at an engine whose own step completes. -/
theorem stepAt_of_step {k : Nat} {y : System} {s u : State} (hs : y.engines[k]? = some s) (h : step s = .next u) :
    System.stepAt k y = .next ⟨y.engines.set k u⟩ := by
  simp only [System.stepAt, hs, h]

theorem stepAt_engine_same {k : Nat} {y z : System} {s u : State} (hs : y.engines[k]? = some s)
    (h : step s = .next u) (hz : System.stepAt k y = .next z) : z.engines[k]? = some u := by
  obtain ⟨hk, -⟩ := List.getElem?_eq_some_iff.1 hs
  obtain rfl : ⟨y.engines.set k u⟩ = z := Host.Outcome.next.inj ((stepAt_of_step hs h).symm.trans hz)
  exact List.getElem?_set_self hk

theorem stepAt_engine_other {k n : Nat} {y z : System} (hz : System.stepAt k y = .next z) (hn : n ≠ k) :
    z.engines[n]? = y.engines[n]? := by
  rcases stepAt_cases hz with ⟨-, rfl⟩ | ⟨s, u, -, -, rfl⟩
  · rfl
  · exact List.getElem?_set_ne hn.symm

/-- No step changes the stream of the engine it moves, and every other engine is as it was (log 24). -/
theorem streamsApart_stepAt {k : Nat} {y z : System} (apart : y.StreamsApart) (hz : System.stepAt k y = .next z) :
    z.StreamsApart := by
  intro n x hx
  rcases stepAt_cases hz with ⟨-, rfl⟩ | ⟨s, u, hs, hu, -⟩
  · exact apart n x hx
  by_cases hn : n = k
  · subst hn
    obtain rfl : u = x := Option.some.inj ((stepAt_engine_same hs hu hz).symm.trans hx)
    exact (step_stream hu).trans (apart n s hs)
  · exact apart n x ((stepAt_engine_other hz hn).symm.trans hx)

/-- Settles O59: the product and the streams are the model's own (log 21, 24). -/
theorem engineInstancesAreIndependent : Obligations.EngineInstancesAreIndependent :=
  ⟨fun _ _ _ _ => stepAt_engine_other, fun _ _ _ _ _ => stepAt_engine_same,
    fun _ _ _ _ hs h => ⟨_, stepAt_of_step hs h⟩, streamsApart_reset, fun _ _ _ => streamsApart_stepAt⟩

end Sys2Proof.Machine
end

section
/-! PROOFS. The reset event (70_reset_and_hazards.md R180, R182): the one effect of a reset turn. -/

namespace Sys2Proof.Machine

/-- Settles O47: a reset turn is `resetEvent` in every phase, and taking the turn leaves the message space alone. -/
theorem resetEventEndsARun : Obligations.ResetEventEndsARun := fun s turn =>
  have message : (resetEvent (popTurn s)).msg = s.msg := by
    rw [resetEvent_msg, popTurn_msg]
  ⟨_, step_reset turn, resetEvent_phase _, congrArg Fin.val (resetEvent_t _), resetEvent_bi _, resetEvent_len _,
    resetEvent_done _, resetEvent_err _, message⟩

end Sys2Proof.Machine
end
